-- ==== Sys2Proof/Word.lean ====
section
/-! DEFINITION. The block's value types (00_scope.md R8, R11): every width the spec gives a
register, a table entry, an operand or a port. A table index is a plain `Nat` once it is used as a
key, reached from its u32 by `toNat`. -/

namespace Sys2Proof

/-- A command word as it crosses the command port, 64 bits (R70, R72). -/
abbrev CommandWord := BitVec 64

/-- u32: `pc`, `MODE`, `GHR`, an `LHT` entry, a token index (R8, R21, R26, R27, R32). -/
abbrev U32 := BitVec 32

/-- u6: the three configured widths (R21, R76). -/
abbrev U6 := BitVec 6

/-- u2: a saturating counter (R8, R28 to R31). -/
abbrev Counter := BitVec 2

/-- s8, two's complement: a perceptron bias or weight (R33, R34). -/
abbrev Weight := BitVec 8

/-- s32, two's complement: the retained perceptron sum (R26, R173). -/
abbrev SumWord := BitVec 32

/-- u3: the fault register (R25). -/
abbrev FaultBits := BitVec 3

/-- u1: an outcome, a prediction or a flag. `true` is 1, taken (R15). -/
abbrev Bit := Bool

end Sys2Proof
end

