-- ==== Sys2Proof/Syntax.lean ====
section
/-! DEFINITION. The commands: one constructor per row of spec/opcode_table.json, with the operands
of 30_encoding.md R76; and the source form of a command, R80. -/

namespace Sys2Proof

/-- A decoded command (R72 to R77). Each operand has its field's width, so every term is one that
the 64-bit word can carry. -/
inductive Instr where
  /-- INIT, F-INIT (R73, R201): `initialize(config)`. -/
  | init (mode : U32) (gbits pbits lbits : U6)
  /-- PREDICT, F-PRED (R74, R203): `predict(program_counter)`. -/
  | predict (pc : U32)
  /-- TRAIN, F-TRAIN (R75, R204): `train(resolved_outcome_bit)`. -/
  | train (t : Bit)
  deriving DecidableEq, Repr

/-- The active predictor, by name (R200). -/
inductive Mode where
  | static
  | gshare
  | tournament
  | custom
  | unrecognized
  deriving DecidableEq, Repr

/-- The names of the modes that have one (R80, R200). -/
inductive ModeName where
  | STATIC
  | GSHARE
  | TOURNAMENT
  | CUSTOM
  deriving DecidableEq, Repr

/-- The `<mode>` operand of the source form (R80): one of four names, or a number. -/
inductive ModeOperand where
  | named (m : ModeName)
  | number (n : Nat)
  deriving DecidableEq, Repr

/-- The `<t>` operand of the source form (R80). -/
inductive OutcomeOperand where
  | T
  | N
  deriving DecidableEq, Repr

/-- One command as the assembler reads it (R80), its numbers not yet checked against their
fields. -/
inductive SourceCommand where
  | init (mode : ModeOperand) (gbits pbits lbits : Nat)
  | predict (pc : Nat)
  | train (t : OutcomeOperand)
  deriving DecidableEq, Repr

end Sys2Proof
end

