-- ==== Sys2Proof/Decode.lean ====
section
/-! DEFINITION. The decoder, total on all 2^64 words and rejecting by name (30_encoding.md R72 to
R77, R79), and the encoder written from the same formats. A command word crosses the port as one
64-bit value: it has no bytes and no byte order (20_memory.md R54). -/

namespace Sys2Proof

/-- Why a word is no command (R77, R79). All four raise ILLEGAL_COMMAND. -/
inductive Illegal where
  /-- `op = 0b00` selects no format (R72). -/
  | opZero
  /-- A reserved bit of F-INIT is set (R73). -/
  | reservedInit
  /-- A reserved bit of F-PRED is set (R74). -/
  | reservedPredict
  /-- A reserved bit of F-TRAIN is set (R75). -/
  | reservedTrain
  deriving DecidableEq, Repr

/-- The opcode field `op = w[1:0]` (R72). -/
def opField (w : CommandWord) : BitVec 2 := w.extractLsb' 0 2

/-- The reserved bits of F-INIT above `op`: [31:30], [23:22], [15:14] and [7:2] (R73, R77). -/
def initReserved : CommandWord := 0x00000000C0C0C0FC#64

/-- The operand fields of F-INIT (R73, R76). -/
def initFields (w : CommandWord) : Instr :=
  .init (w.extractLsb' 32 32) (w.extractLsb' 8 6) (w.extractLsb' 16 6) (w.extractLsb' 24 6)

/-- The decoder (R77). -/
def decode (w : CommandWord) : Except Illegal Instr :=
  if opField w = 0b01#2 then
    if w &&& initReserved ≠ 0 then .error .reservedInit else .ok (initFields w)
  else if opField w = 0b10#2 then
    if w.extractLsb' 2 30 ≠ 0 then .error .reservedPredict else .ok (.predict (w.extractLsb' 32 32))
  else if opField w = 0b11#2 then
    if w.extractLsb' 3 61 ≠ 0 then .error .reservedTrain else .ok (.train (w.getLsbD 2))
  else .error .opZero

/-- The word of a command: each operand in its field, every reserved bit 0 (R73, R74, R75). -/
def encode : Instr → CommandWord
  | .init mode g p l => mode ++ 0#2 ++ l ++ 0#2 ++ p ++ 0#2 ++ g ++ 0#6 ++ 0b01#2
  | .predict pc => pc ++ 0#30 ++ 0b10#2
  | .train t => 0#61 ++ BitVec.ofBool t ++ 0b11#2

/-- The command the decoder reads from a row's `nbits` bits `w`, the bits above `nbits` zero. -/
def decodeTableWord (nbits w : Nat) : Option Instr :=
  match decode (BitVec.ofNat 64 (w % 2 ^ nbits)) with
  | .ok i => some i
  | .error _ => none

end Sys2Proof
end

