-- ==== Sys2Proof/Config.lean ====
section
/-! DEFINITION. What is fixed for the machine before a run: the shape of the open parameter
`THETA_FN` (00_scope.md R9, 44_dispatcher.md R208: "a configuration input fixed before the run").
Its default values and the numeric literals of R4 stand in Machine/Parameters.lean. -/

namespace Sys2Proof

/-- `THETA_FN : Nat -> Int` as plain data: entry `w` is THETA_FN(w). The legal widths are 1 to 32
(R7), so 33 entries hold every value a run can read. -/
abbrev ThetaFn := Vector Int 33

end Sys2Proof
end

