-- ==== Sys2Proof/Machine/Parameters.lean ====
section
/-! DEFINITION. The numeric literals the spec takes as normative (00_scope.md R4, R8) and the
default of the open parameter `THETA_FN` (R9). -/

namespace Sys2Proof.Machine

/-- The widest legal width, "register capacity (32)" (R4, R7). -/
def maxWidth : Nat := 32

/-- A counter's value after INIT (R28 to R31, R202): 1, "weakly not-taken" (in TMETA "weakly prefer
global"). -/
def counterInit : Counter := 1#2

/-- A bias's value after INIT (R33, R202). -/
def biasInit : Weight := 1#8

/-- A weight's value after INIT (R34, R202). -/
def weightInit : Weight := 0#8

/-- GHR's and an LHT entry's value after INIT (R27, R32, R202). -/
def historyInit : U32 := 0#32

/-- The bound of a weight and a bias, [-127, 127] (R4, R8). -/
def weightBound : Int := 127

/-- The default `THETA_FN(Wg) = floor((193 * Wg + 1400) / 100)` (R9, D8). PRESUMED: the spec takes
it from general knowledge (log entry 3), unsafe. -/
def thetaDefault (wg : Nat) : Int := (193 * (wg : Int) + 1400) / 100

/-- The default `THETA_FN` on the widths 0 to 32. -/
def thetaFnDefault : ThetaFn := ⟨((List.range 33).map thetaDefault).toArray, by simp⟩

end Sys2Proof.Machine
end

