-- ==== Sys2Proof/Machine/State.lean ====
section
/-! DEFINITION. The block's whole state as one record (10_state.md R20), the machine after reset
(70_reset_and_hazards.md R260, R261), and the reasons a step can stop.

An element that "holds no value" is absent (R42: "A model must not give it zero or any other
default"), so a register or table that reset deallocates is an `Option`, `none` while it is absent.
See log entry 1. -/

namespace Sys2Proof.Machine

/-- A table of `2 ^ bits` entries (R50): every entry holds `fill` but those listed in `cells`, which
are kept in one canonical form (`Table.wf`). INIT fills a table whole (R202), so `fill` is the value
INIT wrote. -/
structure Table (α : Type) where
  bits : Nat
  fill : α
  cells : List (Nat × α)
  deriving DecidableEq, Repr

/-- The elements of R20 that can hold no value, each under the spec's own name. -/
inductive Element where
  | MODE | GBITS | PBITS | LBITS | THETA | GHR
  | GPHT | TGPT | TLPT | TMETA | LHT | PBIAS | PW
  | TOK_GIDX | TOK_PIDX | TOK_LIDX | TOK_GPRED | TOK_LPRED | TOK_SUM
  deriving DecidableEq, Repr

/-- The MODEL-level faults: accesses the spec says cannot happen and a model must stop on. They are
not the block's own faults, which are codes in `FAULT` (R230) and give a next state. -/
inductive Fault where
  /-- An element that holds no value was read (R42). Raised by every meaning's reads. No state
  meeting `BlockInv` raises it. Safe: the machine stops. -/
  | holdsNoValue (e : Element)
  /-- A table index out of range (R53: "a model fault, never … a wrap or a clamp"). Raised by table
  reads and writes. No state meeting `BlockInv` raises it. Safe: the machine stops. -/
  | indexOutOfRange (e : Element)
  /-- A row of PW without exactly GBITS lanes (R34, R53). Raised by the perceptron. No state meeting
  `BlockInv` raises it. Safe: the machine stops. -/
  | rowWidth
  deriving DecidableEq, Repr

/-- Why a command has no meaning. -/
inductive Refusal where
  /-- The command named has no meaning in this model yet. Raised by no arm: all three commands are
  modelled. Safe: the machine stops. -/
  | notModelled (mnemonic : String)
  deriving DecidableEq, Repr

/-- What the caller can present to the block: a command word (R70) or a reset (R260). A reset that
arrives with a command takes effect first (R235): it stands before the word in the list. -/
inductive Input where
  | reset
  | command (w : CommandWord)
  deriving DecidableEq, Repr

/-- The state. The fields down to `tokSum` are the spec's record (R20), in its order; the last three
are the model's own: the two ports and the open parameter. -/
structure State where
  /-- INIT_DONE (R23). -/
  initDone : Bit
  /-- PENDING (R24). -/
  pending : Bit
  /-- FAULT, a code of R230 (R25). -/
  fault : FaultBits
  /-- MODE (R21). -/
  mode : Option U32
  /-- GBITS (R21). -/
  gbits : Option U6
  /-- PBITS (R21). -/
  pbits : Option U6
  /-- LBITS (R21). -/
  lbits : Option U6
  /-- THETA, an Int (R22). -/
  theta : Option Int
  /-- GHR (R27). -/
  ghr : Option U32
  /-- GPHT, the gshare counters (R28). -/
  gpht : Option (Table Counter)
  /-- TGPT, the tournament global counters (R29). -/
  tgpt : Option (Table Counter)
  /-- TLPT, the tournament local counters (R30). -/
  tlpt : Option (Table Counter)
  /-- TMETA, the tournament meta counters (R31). -/
  tmeta : Option (Table Counter)
  /-- LHT, the local histories (R32). -/
  lht : Option (Table U32)
  /-- PBIAS, the perceptron biases (R33). -/
  pbias : Option (Table Weight)
  /-- PW, the perceptron weights, a row of GBITS lanes per bucket (R34). -/
  pw : Option (Table (List Weight))
  /-- TOK_GIDX (R26). -/
  tokGidx : Option U32
  /-- TOK_PIDX (R26). -/
  tokPidx : Option U32
  /-- TOK_LIDX (R26). -/
  tokLidx : Option U32
  /-- TOK_GPRED (R26). -/
  tokGpred : Option Bit
  /-- TOK_LPRED (R26). -/
  tokLpred : Option Bit
  /-- TOK_SUM (R26). -/
  tokSum : Option SumWord
  /-- THETA_FN, the open parameter (R9), fixed for the machine: no step writes it. Log entry 3. -/
  thetaFn : ThetaFn
  /-- The command port CMD: what the caller presents from here on, next first (R70). Log entry 2. -/
  inputs : List Input
  /-- The response port RESP: the responses since reset, in command order (R71). Log entry 2. -/
  resp : List Bit
  deriving DecidableEq, Repr

/-- The block after reset (R260, R261), with nothing presented, no response given, and the default
`THETA_FN` (R9). -/
def State.reset : State where
  initDone := false
  pending := false
  fault := 0#3
  mode := none
  gbits := none
  pbits := none
  lbits := none
  theta := none
  ghr := none
  gpht := none
  tgpt := none
  tlpt := none
  tmeta := none
  lht := none
  pbias := none
  pw := none
  tokGidx := none
  tokPidx := none
  tokLidx := none
  tokGpred := none
  tokLpred := none
  tokSum := none
  thetaFn := thetaFnDefault
  inputs := []
  resp := []

end Sys2Proof.Machine
end

