-- ==== Sys2Proof/Machine/Operands.lean ====
section
/-! DEFINITION. How an operand is turned into what a command uses: masks and table indices
(00_scope.md R12, 40_primitives.md R102), history bits (R101), and the one table from mode numbers
to modes (44_dispatcher.md R200). -/

namespace Sys2Proof.Machine

/-- `mask(n) = 2^n − 1` (R12), exact. -/
def mask (n : Nat) : Nat := 2 ^ n - 1

/-- `Idx(v, n) = v & mask(n)` (R102). -/
def idx (v : U32) (n : Nat) : U32 := BitVec.ofNat 32 (v.toNat &&& mask n)

/-- `HistBit(h, i) = h[i]`: bit 0 is the newest outcome (R101). -/
def histBit (h : U32) (i : Nat) : Bit := h.getLsbD i

/-- The one table from mode names to numbers (R200, I10: "A model keeps the map in one place").
PRESUMED: the spec takes the numbers from general knowledge (G2, D5, log entry 4), unsafe. -/
def modeValue : ModeName → U32
  | .STATIC => 0#32
  | .GSHARE => 1#32
  | .TOURNAMENT => 2#32
  | .CUSTOM => 3#32

/-- The mode a MODE value selects (R200): a named one, or unrecognized. -/
def modeOf (m : U32) : Mode :=
  if m = modeValue .STATIC then .static
  else if m = modeValue .GSHARE then .gshare
  else if m = modeValue .TOURNAMENT then .tournament
  else if m = modeValue .CUSTOM then .custom
  else .unrecognized

end Sys2Proof.Machine
end

