-- ==== Sys2Proof/Machine/Primitives.lean ====
section
/-! DEFINITION. The leaf operations of 40_primitives.md, pure functions that the model rules apply:
history shift (R100), saturating counter (R103), saturating weight (R105), signs (R106), and the
perceptron's sum, gate and lane updates (43_perceptron.md R171, R180, R181). -/

namespace Sys2Proof.Machine

/-- `HistShift(h, t, w) = ((h << 1) | t) & mask(w)`, the shift exact (R12, R100). -/
def histShift (h : U32) (t : Bit) (w : Nat) : U32 :=
  BitVec.ofNat 32 (((h.toNat <<< 1) ||| t.toNat) &&& mask w)

/-- `SatInc` (R103). -/
def satInc (c : Counter) : Counter := if c.toNat < 3 then c + 1 else 3

/-- `SatDec` (R103). -/
def satDec (c : Counter) : Counter := if c.toNat > 0 then c - 1 else 0

/-- `SatUpdate` (R103). -/
def satUpdate (c : Counter) (t : Bit) : Counter := if t then satInc c else satDec c

/-- `CtrPred(c) = c[1]` (R103). -/
def ctrPred (c : Counter) : Bit := c.getLsbD 1

/-- `WInc` (R105). -/
def wInc (x : Weight) : Weight :=
  if x.toInt < weightBound then BitVec.ofInt 8 (x.toInt + 1) else BitVec.ofInt 8 weightBound

/-- `WDec` (R105). -/
def wDec (x : Weight) : Weight :=
  if x.toInt > -weightBound then BitVec.ofInt 8 (x.toInt - 1) else BitVec.ofInt 8 (-weightBound)

/-- `OSign` (R106). -/
def oSign (t : Bit) : Int := if t then 1 else -1

/-- `PSign` (R106): a sum of 0 counts as taken. -/
def pSign (s : Int) : Int := if s ≥ 0 then 1 else -1

/-- The loop of `PercSum` (R171) from lane `i` on: `ws` are the weights of the lanes `i`, `i+1`, …,
and `sum` the running sum. -/
def percSumFrom (h : U32) (i : Nat) (sum : Int) : List Weight → Int
  | [] => sum
  | w :: ws => percSumFrom h (i + 1) (if histBit h i then sum + w.toInt else sum - w.toInt) ws

/-- `PercSum(b, h)` (R171), for the bucket's bias and its GBITS weights. -/
def percSum (bias : Weight) (ws : List Weight) (h : U32) : Int := percSumFrom h 0 bias.toInt ws

/-- `PercGate(sum, t, theta)` (R181). -/
def percGate (sum : Int) (t : Bit) (theta : Int) : Bool :=
  decide (pSign sum ≠ oSign t) || decide ((sum.natAbs : Int) ≤ theta)

/-- A weight's or the bias's step, toward `up` (R180). -/
def wStep (up : Bool) (x : Weight) : Weight := if up then wInc x else wDec x

/-- The weight loop of CUSTOM.TRAIN (R180) from lane `i` on: up where the history bit equals the
outcome, down where it does not. -/
def trainLanesFrom (h : U32) (t : Bit) (i : Nat) : List Weight → List Weight
  | [] => []
  | w :: ws => wStep (histBit h i == t) w :: trainLanesFrom h t (i + 1) ws

/-- The weight loop of CUSTOM.TRAIN over a bucket's lanes (R180). -/
def trainLanes (h : U32) (t : Bit) (ws : List Weight) : List Weight := trainLanesFrom h t 0 ws

end Sys2Proof.Machine
end

