-- ==== Sys2Proof/Machine/Ops.lean ====
section
/-! DEFINITION. The named operations over the state: the table primitives and their canonical form
(20_memory.md R50 to R53), reading an element that may hold no value (10_state.md R42), the counter
table operations (40_primitives.md R104), responding (30_encoding.md R71), raising a fault
(60_exceptions.md R230, R231) and taking a reset (70_reset_and_hazards.md R260). -/

namespace Sys2Proof.Machine

/-! ### The cells of a table -/

/-- The listed value at `k`, if any. -/
def cellGet {α : Type} (k : Nat) : List (Nat × α) → Option α
  | [] => none
  | c :: cs => if c.1 = k then some c.2 else cellGet k cs

/-- `cells` with `v` listed at `k`, keys still rising. -/
def cellInsert {α : Type} (k : Nat) (v : α) : List (Nat × α) → List (Nat × α)
  | [] => [(k, v)]
  | c :: cs =>
    if k < c.1 then (k, v) :: c :: cs
    else if k = c.1 then (k, v) :: cs
    else c :: cellInsert k v cs

/-- `cells` with nothing listed at `k`. -/
def cellErase {α : Type} (k : Nat) : List (Nat × α) → List (Nat × α)
  | [] => []
  | c :: cs => if c.1 = k then cellErase k cs else c :: cellErase k cs

/-! ### Tables -/

/-- A table of `2 ^ bits` entries, all `v` (R202: "for all j < 2^g"). -/
def Table.filled {α : Type} (bits : Nat) (v : α) : Table α := ⟨bits, v, []⟩

/-- The canonical form: keys strictly rising and in the index range, no listed entry equal to what an
unlisted one reads as. Equal tables are equal data. -/
abbrev Table.wf {α : Type} (t : Table α) : Prop :=
  t.cells.Pairwise (fun a b => a.1 < b.1) ∧ ∀ c ∈ t.cells, c.1 < 2 ^ t.bits ∧ c.2 ≠ t.fill

/-- `TableRead(T, i)` (R52), `none` for an index out of range (R53). -/
def Table.read {α : Type} (t : Table α) (i : Nat) : Option α :=
  if i < 2 ^ t.bits then some ((cellGet i t.cells).getD t.fill) else none

/-- `TableWrite(T, i, v)` (R52), `none` for an index out of range (R53). -/
def Table.write {α : Type} [DecidableEq α] (t : Table α) (i : Nat) (v : α) : Option (Table α) :=
  if i < 2 ^ t.bits then
    some { t with cells := if v = t.fill then cellErase i t.cells else cellInsert i v t.cells }
  else none

/-- Every table of the state that exists is in canonical form. -/
abbrev Memory.wf (s : State) : Prop :=
  (∀ t ∈ s.gpht, t.wf) ∧ (∀ t ∈ s.tgpt, t.wf) ∧ (∀ t ∈ s.tlpt, t.wf) ∧ (∀ t ∈ s.tmeta, t.wf) ∧
  (∀ t ∈ s.lht, t.wf) ∧ (∀ t ∈ s.pbias, t.wf) ∧ (∀ t ∈ s.pw, t.wf)

/-! ### Reading the state -/

/-- The value of an element; reading one that holds no value is a model fault (R42). -/
def need {α : Type} (e : Element) : Option α → Except Fault α
  | some a => .ok a
  | none => .error (.holdsNoValue e)

/-- An index out of range is a model fault (R53). -/
def inRange {α : Type} (e : Element) : Option α → Except Fault α
  | some a => .ok a
  | none => .error (.indexOutOfRange e)

/-- `T[i]` of a table element (R52, R53). -/
def tableRead {α : Type} (e : Element) (t : Option (Table α)) (i : U32) : Except Fault α := do
  let t ← need e t
  inRange e (t.read i.toNat)

/-- `T[i] <- v` of a table element (R52, R53): the table after the write. -/
def tableWrite {α : Type} [DecidableEq α] (e : Element) (t : Option (Table α)) (i : U32) (v : α) :
    Except Fault (Table α) := do
  let t ← need e t
  inRange e (t.write i.toNat v)

/-- A row of PW has exactly GBITS lanes (R34, R53). -/
def fullRow (g : Nat) (row : List Weight) : Except Fault (List Weight) :=
  if row.length = g then .ok row else .error .rowWidth

/-! ### Counter tables -/

/-- `SctPredict(T, i)` (R104). -/
def sctPredict (e : Element) (t : Option (Table Counter)) (i : U32) : Except Fault Bit := do
  let c ← tableRead e t i
  return ctrPred c

/-- `SctTrain(T, i, t)` and `SctToward(T, i, d)` (R104): both step entry `i` of the table with
`SatInc` when the bit is 1 and with `SatDec` when it is 0. -/
def sctTrain (e : Element) (t : Option (Table Counter)) (i : U32) (d : Bit) :
    Except Fault (Table Counter) := do
  let c ← tableRead e t i
  tableWrite e t i (satUpdate c d)

/-! ### Responses, faults, reset, the command's end -/

/-- `respond(b)` (R13, R71). -/
def State.respond (s : State) (b : Bit) : State := { s with resp := s.resp ++ [b] }

/-- A write of PENDING (R24). -/
def State.setPending (s : State) (b : Bit) : State := { s with pending := b }

/-- The block's fault codes but NONE (R230). -/
inductive FaultCode where
  | illegalCommand
  | notInitialized
  | alreadyInitialized
  | badConfig
  | predictPending
  | noPredict
  deriving DecidableEq, Repr

/-- `FAULT` when there is none (R230). -/
def faultNone : FaultBits := 0#3

/-- The number of a fault code (R230). -/
def faultBits : FaultCode → FaultBits
  | .illegalCommand => 1#3
  | .notInitialized => 2#3
  | .alreadyInitialized => 3#3
  | .badConfig => 4#3
  | .predictPending => 5#3
  | .noPredict => 6#3

/-- `raise Fault(code)` (R231): it writes FAULT and nothing else, and gives no response. -/
def State.raise (s : State) (c : FaultCode) : State := { s with fault := faultBits c }

/-- What a reset leaves (R260): "nothing survives a reset". The parameter `THETA_FN` is fixed for the
machine and is no state of the block, and what the caller presents next is the caller's. -/
def State.takeReset (s : State) (rest : List Input) : State :=
  { State.reset with thetaFn := s.thetaFn, inputs := rest }

/-- The state once its presented inputs are `rest`. -/
def State.withInputs (s : State) (rest : List Input) : State := { s with inputs := rest }

/-- The end of a command's own pseudocode: its next state, or a model fault. -/
def finish : Except Fault State → Host.Outcome State Fault Refusal
  | .ok s => .next s
  | .error f => .fault f

/-- A command after its checks (R232): the first check that fails raises its fault, which is a next
state; with none, the command is performed. -/
def guarded (check : Option FaultCode) (s : State) (perform : Except Fault State) :
    Host.Outcome State Fault Refusal :=
  match check with
  | some c => .next (s.raise c)
  | none => finish perform

end Sys2Proof.Machine
end

