-- ==== Sys2Proof/Machine/Flags.lean ====
section
/-! DEFINITION. The checks over the lifecycle flags, in the order of 60_exceptions.md R232: the first
that fails names the fault. ILLEGAL_COMMAND comes before them all and is raised where the word is
decoded (Machine/Step.lean). -/

namespace Sys2Proof.Machine

/-- A legal width is 1 to 32 (R21, R232). -/
def legalWidth (w : U6) : Bool := decide (1 ≤ w.toNat) && decide (w.toNat ≤ maxWidth)

/-- INIT's checks: ALREADY_INITIALIZED, then BAD_CONFIG (R232). -/
def checkInit (g p l : U6) (s : State) : Option FaultCode :=
  if s.initDone then some .alreadyInitialized
  else if !(legalWidth g && legalWidth p && legalWidth l) then some .badConfig
  else none

/-- PREDICT's checks: NOT_INITIALIZED, then PREDICT_PENDING (R232). -/
def checkPredict (s : State) : Option FaultCode :=
  if !s.initDone then some .notInitialized
  else if s.pending then some .predictPending
  else none

/-- TRAIN's checks: NOT_INITIALIZED, then NO_PREDICT (R232). -/
def checkTrain (s : State) : Option FaultCode :=
  if !s.initDone then some .notInitialized
  else if !s.pending then some .noPredict
  else none

/-- The block is faulted and ignores every command (R233). -/
def State.faulted (s : State) : Bool := decide (s.fault ≠ faultNone)

end Sys2Proof.Machine
end

