-- ==== Sys2Proof/Machine/Gshare.lean ====
section
/-! DEFINITION. The gshare model (41_gshare.md). The Dispatcher makes the checks and writes
PENDING. -/

namespace Sys2Proof.Machine

/-- GSHARE.PREDICT (R120). -/
def gsharePredict (pc : U32) (s : State) : Except Fault State := do
  let g ← need .GBITS s.gbits
  let h ← need .GHR s.ghr
  let gidx := idx h g.toNat ^^^ idx pc g.toNat
  let b ← sctPredict .GPHT s.gpht gidx
  return { s with tokGidx := some gidx }.respond b

/-- GSHARE.TRAIN (R121). -/
def gshareTrain (t : Bit) (s : State) : Except Fault State := do
  let g ← need .GBITS s.gbits
  let h ← need .GHR s.ghr
  let gidx ← need .TOK_GIDX s.tokGidx
  let gpht ← sctTrain .GPHT s.gpht gidx t
  return { s with gpht := some gpht, ghr := some (histShift h t g.toNat) }

end Sys2Proof.Machine
end

