-- ==== Sys2Proof/Machine/Perceptron.lean ====
section
/-! DEFINITION. The perceptron model, mode CUSTOM (43_perceptron.md). The Dispatcher makes the checks
and writes PENDING. -/

namespace Sys2Proof.Machine

/-- CUSTOM.PREDICT (R170). The sum is exact and fits TOK_SUM without loss (R173). -/
def customPredict (pc : U32) (s : State) : Except Fault State := do
  let g ← need .GBITS s.gbits
  let p ← need .PBITS s.pbits
  let h ← need .GHR s.ghr
  let b := idx pc p.toNat
  let bias ← tableRead .PBIAS s.pbias b
  let row ← tableRead .PW s.pw b
  let ws ← fullRow g.toNat row
  let sum := percSum bias ws h
  return { s with tokPidx := some b, tokSum := some (BitVec.ofInt 32 sum) }.respond (decide (sum ≥ 0))

/-- The update behind the gate (R180): the bias and all GBITS weights of bucket `b`, with the history
before this TRAIN's shift (R182). -/
def customUpdate (b h : U32) (g : Nat) (t : Bit) (s : State) : Except Fault State := do
  let bias ← tableRead .PBIAS s.pbias b
  let pbias ← tableWrite .PBIAS s.pbias b (wStep t bias)
  let row ← tableRead .PW s.pw b
  let ws ← fullRow g row
  let pw ← tableWrite .PW s.pw b (trainLanes h t ws)
  return { s with pbias := some pbias, pw := some pw }

/-- The update, if the gate of R181 opens. -/
def gatedUpdate (gate : Bool) (b h : U32) (g : Nat) (t : Bit) (s : State) : Except Fault State :=
  if gate then customUpdate b h g t s else .ok s

/-- CUSTOM.TRAIN (R180). -/
def customTrain (t : Bit) (s : State) : Except Fault State := do
  let g ← need .GBITS s.gbits
  let h ← need .GHR s.ghr
  let theta ← need .THETA s.theta
  let b ← need .TOK_PIDX s.tokPidx
  let sum ← need .TOK_SUM s.tokSum
  let s' ← gatedUpdate (percGate sum.toInt t theta) b h g.toNat t s
  return { s' with ghr := some (histShift h t g.toNat) }

end Sys2Proof.Machine
end

