-- ==== Sys2Proof/Machine/Tournament.lean ====
section
/-! DEFINITION. The tournament model (42_tournament.md). The Dispatcher makes the checks and writes
PENDING. -/

namespace Sys2Proof.Machine

/-- TOURNAMENT.PREDICT (R140). -/
def tournamentPredict (pc : U32) (s : State) : Except Fault State := do
  let g ← need .GBITS s.gbits
  let p ← need .PBITS s.pbits
  let l ← need .LBITS s.lbits
  let h ← need .GHR s.ghr
  let gidx := idx h g.toNat
  let choice ← sctPredict .TMETA s.tmeta gidx
  let pidx := idx pc p.toNat
  let lhist ← tableRead .LHT s.lht pidx
  let lidx := idx lhist l.toNat
  let lpred ← sctPredict .TLPT s.tlpt lidx
  let gpred ← sctPredict .TGPT s.tgpt gidx
  return { s with
    tokGidx := some gidx, tokPidx := some pidx, tokLidx := some lidx,
    tokGpred := some gpred, tokLpred := some lpred }.respond (if choice then lpred else gpred)

/-- The meta counter's step (R141): toward local when only local was correct, toward global when only
global was, and no change when the two predictions agree (R142). -/
def metaTrain (tmeta : Option (Table Counter)) (gidx : U32) (lpred gpred t : Bit) :
    Except Fault (Table Counter) :=
  if lpred = t ∧ gpred ≠ t then sctTrain .TMETA tmeta gidx true
  else if gpred = t ∧ lpred ≠ t then sctTrain .TMETA tmeta gidx false
  else need .TMETA tmeta

/-- TOURNAMENT.TRAIN (R141). -/
def tournamentTrain (t : Bit) (s : State) : Except Fault State := do
  let g ← need .GBITS s.gbits
  let l ← need .LBITS s.lbits
  let h ← need .GHR s.ghr
  let gidx ← need .TOK_GIDX s.tokGidx
  let pidx ← need .TOK_PIDX s.tokPidx
  let lidx ← need .TOK_LIDX s.tokLidx
  let gpred ← need .TOK_GPRED s.tokGpred
  let lpred ← need .TOK_LPRED s.tokLpred
  let tgpt ← sctTrain .TGPT s.tgpt gidx t
  let tlpt ← sctTrain .TLPT s.tlpt lidx t
  let tmeta ← metaTrain s.tmeta gidx lpred gpred t
  let lhist ← tableRead .LHT s.lht pidx
  let lht ← tableWrite .LHT s.lht pidx (histShift lhist t l.toNat)
  return { s with
    tgpt := some tgpt, tlpt := some tlpt, tmeta := some tmeta, lht := some lht,
    ghr := some (histShift h t g.toNat) }

end Sys2Proof.Machine
end

