-- ==== Sys2Proof/Machine/Commands.lean ====
section
/-! DEFINITION. The Dispatcher and the meanings of the three commands (44_dispatcher.md). -/

namespace Sys2Proof.Machine

/-- `InitState(mode, g, p, l)` (R202): the configuration, and the active mode's own state. The other
modes' tables are not allocated (R35). -/
def initState (mode : U32) (g p l : U6) (s : State) : State :=
  let s := { s with mode := some mode, gbits := some g, pbits := some p, lbits := some l }
  match modeOf mode with
  | .gshare => { s with
      ghr := some historyInit
      gpht := some (Table.filled g.toNat counterInit) }
  | .tournament => { s with
      ghr := some historyInit
      tgpt := some (Table.filled g.toNat counterInit)
      tmeta := some (Table.filled g.toNat counterInit)
      tlpt := some (Table.filled l.toNat counterInit)
      lht := some (Table.filled p.toNat historyInit) }
  | .custom => { s with
      ghr := some historyInit
      theta := s.thetaFn[g.toNat]?
      pbias := some (Table.filled p.toNat biasInit)
      pw := some (Table.filled p.toNat (List.replicate g.toNat weightInit)) }
  | .static => s
  | .unrecognized => s

/-- INIT (R201). -/
def execInit (mode : U32) (g p l : U6) (s : State) : Host.Outcome State Fault Refusal :=
  guarded (checkInit g p l s) s
    (.ok ({ initState mode g p l s with initDone := true }.setPending false))

/-- The model a PREDICT runs (R203, R205, R206). -/
def predictIn (m : Mode) (pc : U32) (s : State) : Except Fault State :=
  match m with
  | .static => .ok (s.respond true)
  | .gshare => gsharePredict pc s
  | .tournament => tournamentPredict pc s
  | .custom => customPredict pc s
  | .unrecognized => .ok (s.respond false)

/-- PREDICT (R203). -/
def execPredict (pc : U32) (s : State) : Host.Outcome State Fault Refusal :=
  guarded (checkPredict s) s do
    let m ← need .MODE s.mode
    let s' ← predictIn (modeOf m) pc s
    return s'.setPending true

/-- The model a TRAIN runs (R204, R205, R206). -/
def trainIn (m : Mode) (t : Bit) (s : State) : Except Fault State :=
  match m with
  | .static => .ok s
  | .gshare => gshareTrain t s
  | .tournament => tournamentTrain t s
  | .custom => customTrain t s
  | .unrecognized => .ok s

/-- TRAIN (R204). -/
def execTrain (t : Bit) (s : State) : Host.Outcome State Fault Refusal :=
  guarded (checkTrain s) s do
    let m ← need .MODE s.mode
    let s' ← trainIn (modeOf m) t s
    return s'.setPending false

end Sys2Proof.Machine
end

