-- ==== Sys2Proof/Machine/Dispatch.lean ====
section
/-! DEFINITION. One arm per command (44_dispatcher.md R201, R203, R204). -/

namespace Sys2Proof.Machine

def exec (i : Instr) (s : State) : Host.Outcome State Fault Refusal :=
  match i with
  | .init mode g p l => Sys2Proof.Machine.execInit mode g p l s
  | .predict pc => Sys2Proof.Machine.execPredict pc s
  | .train t => Sys2Proof.Machine.execTrain t s

end Sys2Proof.Machine
end

