-- ==== Sys2Proof/Machine/Step.lean ====
section
/-! DEFINITION. One step: the block takes what the caller presents next, a reset
(70_reset_and_hazards.md R260) or one command word (60_exceptions.md R232), and performs it whole
(00_scope.md R14). -/

namespace Sys2Proof.Machine

/-- `step(w)` of R232 on a state whose port has already given up the word. -/
def perform (w : CommandWord) (s : State) : Host.Outcome State Fault Refusal :=
  if s.faulted then .next s
  else
    match decode w with
    | .error _ => .next (s.raise .illegalCommand)
    | .ok i => exec i s

/-- One step of the block. With nothing presented it stays as it is: no event reaches it but a command
and a reset (R234; log entry 2). -/
def step (s : State) : Host.Outcome State Fault Refusal :=
  match s.inputs with
  | [] => .next s
  | .reset :: rest => .next (s.takeReset rest)
  | .command w :: rest => perform w (s.withInputs rest)

/-- `s` with a row's word at the head of the command port, in place of what stood there: the word the
next step takes. -/
def State.withFetchWord (s : State) (nbits w : Nat) : State :=
  { s with inputs := .command (BitVec.ofNat 64 (w % 2 ^ nbits)) :: s.inputs.tail }

end Sys2Proof.Machine
end

