-- ==== Sys2Proof/WellFormed.lean ====
section
/-! DEFINITION. The checks the assembler makes on a source command: it "refuses an operand too wide
for its field" (30_encoding.md R80). A decoded `Instr` needs no check: each of its operands has the
type of its field. A width INIT cannot take (0, or above 32) is a well-formed operand, which INIT
answers with BAD_CONFIG (R76, R232). -/

namespace Sys2Proof

/-- A mode operand is a name, or "an unsigned number below 2^32" (R80). -/
def ModeOperand.wellFormed : ModeOperand → Bool
  | .named _ => true
  | .number n => decide (n < 2 ^ 32)

/-- "<gbits>, <pbits> and <lbits> are unsigned numbers below 64"; "<pc> is an unsigned number below
2^32" (R80). -/
def SourceCommand.wellFormed : SourceCommand → Bool
  | .init m g p l => m.wellFormed && decide (g < 64) && decide (p < 64) && decide (l < 64)
  | .predict pc => decide (pc < 2 ^ 32)
  | .train _ => true

end Sys2Proof
end

