-- ==== Sys2Proof/Machine/Assembler.lean ====
section
/-! DEFINITION. The spec's command syntax (30_encoding.md R80): one command per line, `;` starts a
comment, and an assembler "places each operand in the field of rule R73, R74 or R75", refuses an
operand too wide for its field and sets every reserved bit to 0. A line is a list of characters, so
that the kernel can read one. -/

namespace Sys2Proof.Machine

/-! ### From a source command to a word -/

/-- The number a `<mode>` operand stands for (R80): a name's, from the one table, or its own. -/
def modeNumber : ModeOperand → Nat
  | .named m => (modeValue m).toNat
  | .number n => n

/-- `T` is taken, 1, and `N` not taken, 0 (R80). -/
def outcomeBit : OutcomeOperand → Bit
  | .T => true
  | .N => false

/-- The command a source command stands for, its numbers known to fit. -/
def lower : SourceCommand → Instr
  | .init m g p l =>
    .init (BitVec.ofNat 32 (modeNumber m)) (BitVec.ofNat 6 g) (BitVec.ofNat 6 p) (BitVec.ofNat 6 l)
  | .predict pc => .predict (BitVec.ofNat 32 pc)
  | .train t => .train (outcomeBit t)

/-- The assembler on a source command (R80): the word, or a refusal of an operand too wide. -/
def assemble (c : SourceCommand) : Option CommandWord :=
  if c.wellFormed then some (encode (lower c)) else none

/-! ### From a line to a source command -/

/-- A token is a word, or a comma. -/
abbrev Token := List Char

/-- The tokens of a line, `cur` being the word read so far: blanks separate, a comma is a token of its
own, and `;` ends the line (R80). -/
def tokensFrom (cur : Token) : List Char → List Token
  | [] => if cur = [] then [] else [cur]
  | c :: cs =>
    let done := if cur = [] then [] else [cur]
    if c = ';' then done
    else if c = ' ' ∨ c = '\t' then done ++ tokensFrom [] cs
    else if c = ',' then done ++ [','] :: tokensFrom [] cs
    else tokensFrom (cur ++ [c]) cs

/-- The value of a digit of base `base`, 10 or 16. -/
def digitValue (base : Nat) (c : Char) : Option Nat :=
  let n := c.toNat
  let v :=
    if 48 ≤ n ∧ n ≤ 57 then n - 48
    else if 97 ≤ n ∧ n ≤ 102 then n - 87
    else if 65 ≤ n ∧ n ≤ 70 then n - 55
    else base
  if v < base then some v else none

/-- The number that digits of base `base` write, after the digits read so far, `acc`. -/
def digitsFrom (base acc : Nat) : List Char → Option Nat
  | [] => some acc
  | c :: cs => (digitValue base c).bind fun v => digitsFrom base (acc * base + v) cs

/-- An unsigned number, "in decimal or `0x` hexadecimal" (R80, R10). -/
def number : Token → Option Nat
  | '0' :: 'x' :: c :: cs => digitsFrom 16 0 (c :: cs)
  | c :: cs => digitsFrom 10 0 (c :: cs)
  | [] => none

/-- The `<mode>` operand (R80). -/
def modeOperand (k : Token) : Option ModeOperand :=
  if k = ['S', 'T', 'A', 'T', 'I', 'C'] then some (.named .STATIC)
  else if k = ['G', 'S', 'H', 'A', 'R', 'E'] then some (.named .GSHARE)
  else if k = ['T', 'O', 'U', 'R', 'N', 'A', 'M', 'E', 'N', 'T'] then some (.named .TOURNAMENT)
  else if k = ['C', 'U', 'S', 'T', 'O', 'M'] then some (.named .CUSTOM)
  else (number k).map .number

/-- The `<t>` operand (R80). -/
def outcomeOperand (k : Token) : Option OutcomeOperand :=
  if k = ['T'] then some .T else if k = ['N'] then some .N else none

/-- The command that a line's tokens write (R80). -/
def parseTokens : List Token → Option SourceCommand
  | [k, m, c₁, g, c₂, p, c₃, l] => do
    if k = ['I', 'N', 'I', 'T'] ∧ c₁ = [','] ∧ c₂ = [','] ∧ c₃ = [','] then
      return .init (← modeOperand m) (← number g) (← number p) (← number l)
    else none
  | [k, x] =>
    if k = ['P', 'R', 'E', 'D', 'I', 'C', 'T'] then (number x).map .predict
    else if k = ['T', 'R', 'A', 'I', 'N'] then (outcomeOperand x).map .train
    else none
  | _ => none

/-- What a line is to the assembler. -/
inductive Line where
  /-- No command: blank, or a comment. -/
  | blank
  /-- One command, assembled. -/
  | word (w : CommandWord)
  /-- Not the syntax of R80, or an operand too wide for its field. -/
  | refused
  deriving DecidableEq, Repr

/-- The assembler on one line (R80). -/
def assembleLine (cs : List Char) : Line :=
  match tokensFrom [] cs with
  | [] => .blank
  | ks =>
    match (parseTokens ks).bind assemble with
    | some w => .word w
    | none => .refused

end Sys2Proof.Machine
end

