-- ==== Sys2Proof/Safety.lean ====
section
/-! DEFINITION. What the statements speak of: reading one entry of a table, the invariant of
10_state.md R35 and R37, the token's agreement with the tables it was made from (R182, D27), and
how a run ends (70_reset_and_hazards.md R263, R269). -/

namespace Sys2Proof.Machine

/-! ### Reading (R40: a model exposes the whole state) -/

/-- Entry `j` of a table element, `none` where the table is absent or `j` out of range. -/
def entryAt {α : Type} (t : Option (Table α)) (j : Nat) : Option α := t.bind fun t => t.read j

/-- `PW[b][k]` (R34, R52). -/
def weightAt (pw : Option (Table (List Weight))) (b k : Nat) : Option Weight :=
  (entryAt pw b).bind fun row => row[k]?

/-! ### The invariant (R35, R37) -/

/-- The element holds a value, and the value meets `ok`. -/
abbrev Holds {α : Type} (o : Option α) (ok : α → Bool) : Prop := o.any ok = true

/-- A bias or weight is in [-127, 127] (R37.4). -/
abbrev inBound (x : Weight) : Prop := -weightBound ≤ x.toInt ∧ x.toInt ≤ weightBound

/-- A table of `2 ^ bits` entries that INIT filled with `fill`, in canonical form, each listed entry
meeting `ok`. -/
abbrev Table.Shaped {α : Type} (t : Table α) (bits : Nat) (fill : α) (ok : α → Prop) : Prop :=
  t.bits = bits ∧ t.fill = fill ∧ t.wf ∧ ∀ c ∈ t.cells, ok c.2

/-- A counter table of `2 ^ bits` entries. Its entries are in 0 to 3 by their type (R37.2). -/
abbrev CounterTable (bits : Nat) (t : Table Counter) : Prop :=
  t.Shaped bits counterInit fun _ => True

/-- An LHT of `2 ^ p` entries, each in range (R32, R37.3). -/
abbrev HistoryTable (p l : Nat) (t : Table U32) : Prop :=
  t.Shaped p historyInit fun h => h.toNat ≤ mask l

/-- A PBIAS of `2 ^ p` entries, each in range (R33, R37.4). -/
abbrev BiasTable (p : Nat) (t : Table Weight) : Prop := t.Shaped p biasInit inBound

/-- A PW of `2 ^ p` rows of `g` weights, each in range (R34, R37.4). -/
abbrev WeightTable (g p : Nat) (t : Table (List Weight)) : Prop :=
  t.Shaped p (List.replicate g weightInit) fun row => row.length = g ∧ ∀ w ∈ row, inBound w

/-- GHR is present and in range (R27, R37.1). -/
abbrev HistoryIn (g : Nat) (s : State) : Prop := Holds s.ghr fun h => decide (h.toNat ≤ mask g)

/-- A token index is present and in range (R37.5). -/
abbrev IndexIn (n : Nat) (o : Option U32) : Prop := Holds o fun i => decide (i.toNat < 2 ^ n)

/-- The tournament's tables hold no value (R35). -/
abbrev NoTournament (s : State) : Prop :=
  s.tgpt = none ∧ s.tlpt = none ∧ s.tmeta = none ∧ s.lht = none

/-- The perceptron's threshold and tables hold no value (R35). -/
abbrev NoCustom (s : State) : Prop := s.theta = none ∧ s.pbias = none ∧ s.pw = none

/-- The token registers that only the tournament writes hold no value (R26, R35). -/
abbrev NoLocalToken (s : State) : Prop :=
  s.tokLidx = none ∧ s.tokGpred = none ∧ s.tokLpred = none

/-- R35's column STATIC, and its column unrecognized. -/
def TablelessState (s : State) : Prop :=
  s.ghr = none ∧ s.gpht = none ∧ NoTournament s ∧ NoCustom s ∧
  s.tokGidx = none ∧ s.tokPidx = none ∧ NoLocalToken s ∧ s.tokSum = none
  deriving Decidable

/-- R35's column GSHARE, with R37. -/
def GshareState (g : Nat) (s : State) : Prop :=
  HistoryIn g s ∧ (∃ t ∈ s.gpht, CounterTable g t) ∧ NoTournament s ∧ NoCustom s ∧
  s.tokPidx = none ∧ NoLocalToken s ∧ s.tokSum = none ∧ (s.pending = true → IndexIn g s.tokGidx)
  deriving Decidable

/-- The tournament's token while a branch is pending (R26, R37.5). -/
def TournamentToken (g p l : Nat) (s : State) : Prop :=
  IndexIn g s.tokGidx ∧ IndexIn p s.tokPidx ∧ IndexIn l s.tokLidx ∧
  s.tokGpred.isSome = true ∧ s.tokLpred.isSome = true
  deriving Decidable

/-- R35's column TOURNAMENT, with R37. -/
def TournamentState (g p l : Nat) (s : State) : Prop :=
  HistoryIn g s ∧ s.gpht = none ∧ NoCustom s ∧ s.tokSum = none ∧
  (∃ t ∈ s.tgpt, CounterTable g t) ∧ (∃ t ∈ s.tlpt, CounterTable l t) ∧
  (∃ t ∈ s.tmeta, CounterTable g t) ∧ (∃ t ∈ s.lht, HistoryTable p l t) ∧
  (s.pending = true → TournamentToken g p l s)
  deriving Decidable

/-- The perceptron's token while a branch is pending (R26, R37.5, R173). -/
def CustomToken (g p : Nat) (s : State) : Prop :=
  IndexIn p s.tokPidx ∧
  Holds s.tokSum fun x => decide ((x.toInt.natAbs : Int) ≤ weightBound * (g + 1))
  deriving Decidable

/-- R35's column CUSTOM, with R37. THETA equals the value INIT wrote (R37.6). -/
def CustomState (g p : Nat) (s : State) : Prop :=
  HistoryIn g s ∧ s.gpht = none ∧ NoTournament s ∧ s.tokGidx = none ∧ NoLocalToken s ∧
  s.theta.isSome = true ∧ s.theta = s.thetaFn[g]? ∧
  (∃ t ∈ s.pbias, BiasTable p t) ∧ (∃ t ∈ s.pw, WeightTable g p t) ∧
  (s.pending = true → CustomToken g p s)
  deriving Decidable

/-- After reset and before INIT (R261): no element holds a value, and no branch is pending. -/
def Uninitialized (s : State) : Prop :=
  s.pending = false ∧ s.mode = none ∧ s.gbits = none ∧ s.pbits = none ∧ s.lbits = none ∧
  TablelessState s
  deriving Decidable

/-- The state of the active mode (R35). -/
def ModeState (m : Mode) (g p l : Nat) (s : State) : Prop :=
  (m = .static ∨ m = .unrecognized → TablelessState s) ∧
  (m = .gshare → GshareState g s) ∧
  (m = .tournament → TournamentState g p l s) ∧
  (m = .custom → CustomState g p s)
  deriving Decidable

/-- After a successful INIT (R35, R37): legal widths, and exactly the active mode's state. -/
def Running (s : State) : Prop :=
  Holds s.mode fun m => Holds s.gbits fun g => Holds s.pbits fun p => Holds s.lbits fun l =>
    legalWidth g && legalWidth p && legalWidth l &&
    decide (ModeState (modeOf m) g.toNat p.toNat l.toNat s)
  deriving Decidable

/-- The invariant. The spec states R37 while FAULT = NONE. It holds in a faulted block too, which only
its FAULT tells apart from the state before (R231). FAULT is never 7 (R25). -/
def BlockInv (s : State) : Prop :=
  s.fault ≠ 7#3 ∧ (s.initDone = false → Uninitialized s) ∧ (s.initDone = true → Running s)
  deriving Decidable

/-! ### The token agrees with what it was made from (R182, D27, N13) -/

/-- The tournament's token, recomputed from GHR, LHT and the counter tables (R140). -/
def TournamentTokenFresh (s : State) : Prop :=
  s.tokGidx = (do return idx (← s.ghr) (← s.gbits).toNat) ∧
  s.tokLidx = (do return idx (← entryAt s.lht (← s.tokPidx).toNat) (← s.lbits).toNat) ∧
  s.tokGpred = (do return ctrPred (← entryAt s.tgpt (← s.tokGidx).toNat)) ∧
  s.tokLpred = (do return ctrPred (← entryAt s.tlpt (← s.tokLidx).toNat))
  deriving Decidable

/-- The perceptron's sum, recomputed from GHR and the bucket's row (R170, R182). -/
def CustomTokenFresh (s : State) : Prop :=
  s.tokSum = (do
    let b ← s.tokPidx
    return BitVec.ofInt 32
      (percSum (← entryAt s.pbias b.toNat) (← entryAt s.pw b.toNat) (← s.ghr)))
  deriving Decidable

/-- While a branch is pending, the token is what a recomputation would give. -/
def TokenFresh (s : State) : Prop :=
  s.initDone = true → s.pending = true →
    (s.mode.map modeOf = some .tournament → TournamentTokenFresh s) ∧
    (s.mode.map modeOf = some .custom → CustomTokenFresh s)
  deriving Decidable

/-! ### Runs (R263, R265, R269) -/

/-- `n` steps, stopping at the first model fault or refusal. -/
def run : Nat → State → Host.Outcome State Fault Refusal
  | 0, s => .next s
  | n + 1, s =>
    match step s with
    | .next t => run n t
    | .fault r => .fault r
    | .refused r => .refused r

/-- A run that has ended, with nothing left to present, ended well when `FAULT = NONE` and
`PENDING = 0` (R269). -/
def State.endedWell (s : State) : Prop :=
  s.inputs = [] ∧ s.fault = faultNone ∧ s.pending = false

/-- The commands of the predict-then-train contract, a PREDICT and then a TRAIN for each branch
(R263, R265). -/
def branchInputs : List (U32 × Bit) → List Input
  | [] => []
  | b :: bs =>
    .command (encode (.predict b.1)) :: .command (encode (.train b.2)) :: branchInputs bs

/-- What the response port shows of one command: the response it gave, if any (R70, R71). -/
def respPort (before after : State) : Option Bit := (after.resp.drop before.resp.length).head?

end Sys2Proof.Machine
end

