-- ==== Sys2Proof/Certificates/Slice0/Obligations.lean ====
section
/-! DEFINITION. The statements about the block, in the order of OBLIGATIONS.json. Each docstring says
which rule of spec/ it formalises. A statement about a mode names the mode, so that none but
`ModeNumbers` rests on the modes' numbers (44_dispatcher.md R200, log entry 4); none but `DefaultTheta`
rests on the default threshold (log entry 3). The ports as lists, a step taking the head of `inputs`,
are the model's own form (log entry 2), and none but `IdleStepChangesNothing` states what a step does
with an empty list. -/

open Sys2Proof Sys2Proof.Machine

/-! ### Encoding (30_encoding.md) -/

/-- R81: each example word is the encoding of its command, and decodes to it. -/
def Obligations.ExampleWordsDecode : Prop :=
  ∀ e ∈ ([(0x0000000101010101#64, .init 1 1 1 1), (0x0000000101010201#64, .init 1 2 1 1),
      (0x0000000202020201#64, .init 2 2 2 2), (0x0000000201010101#64, .init 2 1 1 1),
      (0x0000000301010201#64, .init 3 2 1 1), (0x0000000001010101#64, .init 0 1 1 1),
      (0x0000000701010101#64, .init 7 1 1 1), (0x0000000320202001#64, .init 3 32 32 32),
      (0x0000000000000002#64, .predict 0), (0x0000000100000002#64, .predict 1),
      (0x0040012000000002#64, .predict 0x400120), (0xFFFFFFFF00000002#64, .predict 0xFFFFFFFF),
      (0x0000000000000003#64, .train false), (0x0000000000000007#64, .train true)] :
      List (CommandWord × Instr)),
    encode e.2 = e.1 ∧ decode e.1 = .ok e.2

/-- R73 to R77: decoding the word of any command gives the command back. -/
def Obligations.DecodeEncodeIsIdentity : Prop := ∀ i : Instr, decode (encode i) = .ok i

/-- R73 to R77: a word that decodes is the encoding of what it decodes to, so no two words mean the
same command. -/
def Obligations.EncodeDecodeIsIdentity : Prop :=
  ∀ (w : CommandWord) (i : Instr), decode w = .ok i → encode i = w

/-- R73: a word is INIT exactly when its fields and zero reserved bits make it up, and exactly when it
meets F-INIT's match and mask. -/
def Obligations.InitFormat : Prop :=
  ∀ w : CommandWord,
    (∀ (mode : U32) (g p l : U6), decode w = .ok (.init mode g p l) ↔
      w.toNat = 2 ^ 32 * mode.toNat + 2 ^ 24 * l.toNat + 2 ^ 16 * p.toNat + 2 ^ 8 * g.toNat + 1) ∧
    ((∃ mode g p l, decode w = .ok (.init mode g p l)) ↔
      w &&& 0x00000000C0C0C0FF#64 = 0x0000000000000001#64)

/-- R74: a word is PREDICT exactly when its field and zero reserved bits make it up, and exactly when
it meets F-PRED's match and mask. -/
def Obligations.PredictFormat : Prop :=
  ∀ w : CommandWord,
    (∀ pc : U32, decode w = .ok (.predict pc) ↔ w.toNat = 2 ^ 32 * pc.toNat + 2) ∧
    ((∃ pc, decode w = .ok (.predict pc)) ↔ w &&& 0x00000000FFFFFFFF#64 = 0x0000000000000002#64)

/-- R75: a word is TRAIN exactly when its field and zero reserved bits make it up, and exactly when it
meets F-TRAIN's match and mask. -/
def Obligations.TrainFormat : Prop :=
  ∀ w : CommandWord,
    (∀ t : Bit, decode w = .ok (.train t) ↔ w.toNat = 4 * t.toNat + 3) ∧
    ((∃ t, decode w = .ok (.train t)) ↔ w &&& 0xFFFFFFFFFFFFFFFB#64 = 0x0000000000000003#64)

/-- R79: the illegal words are those with `op = 0b00` and those with a reserved bit set; they raise
ILLEGAL_COMMAND; no word at all leaves an unfaulted block as it was (there is no no-op); and an INIT
with a mode that has no name is a legal word, which selects the fallback. -/
def Obligations.IllegalEncodings : Prop :=
  (∀ w : CommandWord, (∃ e, decode w = .error e) ↔
    (w.extractLsb' 0 2 = 0b00#2 ∨
    (w.extractLsb' 0 2 = 0b01#2 ∧
      ∃ i ∈ [2, 3, 4, 5, 6, 7, 14, 15, 22, 23, 30, 31], w.getLsbD i = true) ∨
    (w.extractLsb' 0 2 = 0b10#2 ∧ ∃ i, 2 ≤ i ∧ i ≤ 31 ∧ w.getLsbD i = true) ∨
    (w.extractLsb' 0 2 = 0b11#2 ∧ ∃ i, 3 ≤ i ∧ i ≤ 63 ∧ w.getLsbD i = true))) ∧
  (∀ (s : State) (w : CommandWord) (rest : List Input), s.inputs = .command w :: rest →
    s.fault = 0#3 → (∃ e, decode w = .error e) →
    step s = .next { s with inputs := rest, fault := 1#3 }) ∧
  (∀ (s : State) (w : CommandWord), s.fault = 0#3 → perform w s ≠ .next s) ∧
  ∀ (mode : U32) (g p l : U6), (∀ n, mode ≠ modeValue n) →
    ∃ w, decode w = .ok (.init mode g p l) ∧ modeOf mode = .unrecognized

/-- R80: the assembler takes a source command exactly when every operand fits its field, and its word
decodes to the command with those operands; it refuses every other. -/
def Obligations.AssemblerPlacesOperands : Prop :=
  (∀ c : SourceCommand, c.wellFormed = true →
    ∃ w i, assemble c = some w ∧ decode w = .ok i ∧
      match c with
      | .init m g p l => ∃ mode gb pb lb, i = .init mode gb pb lb ∧ mode.toNat = modeNumber m ∧
          gb.toNat = g ∧ pb.toNat = p ∧ lb.toNat = l
      | .predict pc => ∃ a, i = .predict a ∧ a.toNat = pc
      | .train t => i = .train (decide (t = .T))) ∧
  ∀ c : SourceCommand, c.wellFormed = false → assemble c = none

/-! ### Steps, reset, faults (60_exceptions.md, 70_reset_and_hazards.md) -/

/-- R14, R232: the word at the head of the port, in an unfaulted block, runs the command it decodes
to. -/
def Obligations.StepRunsDecodedCommand : Prop :=
  ∀ (s : State) (w : CommandWord) (rest : List Input) (i : Instr),
    s.inputs = .command w :: rest → s.fault = 0#3 → decode w = .ok i →
    step s = exec i { s with inputs := rest }

/-- The model's own choice (log entry 2): with nothing presented, a step changes nothing. -/
def Obligations.IdleStepChangesNothing : Prop :=
  ∀ s : State, s.inputs = [] → step s = .next s

/-- R233: a faulted block ignores every command, only reset clears FAULT, and a faulted state is no
good end of a run. -/
def Obligations.FaultedBlockIgnoresCommands : Prop :=
  ∀ s : State, s.fault ≠ 0#3 →
    (∀ w rest, s.inputs = .command w :: rest → step s = .next { s with inputs := rest }) ∧
    (∀ rest, s.inputs = .reset :: rest → ∃ t, step s = .next t ∧ t.fault = 0#3) ∧
    ¬ s.endedWell

/-- R233, R237: however many commands are presented, a faulted block is as it was after them all. -/
def Obligations.FaultedBlockStaysFaulted : Prop :=
  ∀ (s : State) (ws : List CommandWord), s.fault ≠ 0#3 → s.inputs = ws.map .command →
    run ws.length s = .next { s with inputs := [] }

/-- R260: what a reset writes. -/
def Obligations.ResetLeavesNothing : Prop :=
  ∀ (s : State) (rest : List Input), s.inputs = .reset :: rest →
    ∃ t, step s = .next t ∧ t.initDone = false ∧ t.pending = false ∧ t.fault = 0#3 ∧
      t.mode = none ∧ t.gbits = none ∧ t.pbits = none ∧ t.lbits = none ∧ t.theta = none ∧
      t.ghr = none ∧ t.gpht = none ∧ t.tgpt = none ∧ t.tlpt = none ∧ t.tmeta = none ∧
      t.lht = none ∧ t.pbias = none ∧ t.pw = none ∧ t.tokGidx = none ∧ t.tokPidx = none ∧
      t.tokLidx = none ∧ t.tokGpred = none ∧ t.tokLpred = none ∧ t.tokSum = none ∧
      t.inputs = rest

/-- R235: a reset that arrives with a command takes effect first, and the command is judged against
the reset state. -/
def Obligations.ResetTakesEffectBeforeCommand : Prop :=
  ∀ (s : State) (w : CommandWord) (rest : List Input), s.inputs = .reset :: .command w :: rest →
    run 2 s = perform w { State.reset with thetaFn := s.thetaFn, inputs := rest }

/-- R262: in every state a reset leaves, whatever the parameter and whatever is presented next, every
word is answered by a next state, and every word but an INIT with legal widths raises a fault. -/
def Obligations.OnlyInitSucceedsAfterReset : Prop :=
  ∀ (f : ThetaFn) (rest : List Input) (w : CommandWord),
    ∃ t, perform w { State.reset with thetaFn := f, inputs := rest } = .next t ∧
      (t.fault = 0#3 ↔ ∃ mode g p l, decode w = .ok (.init mode g p l) ∧
        1 ≤ g.toNat ∧ g.toNat ≤ 32 ∧ 1 ≤ p.toNat ∧ p.toNat ≤ 32 ∧ 1 ≤ l.toNat ∧ l.toNat ≤ 32)

/-- R232: each command's checks, in order, each with its fault; and a command that passes them raises
none. -/
def Obligations.ChecksInOrder : Prop :=
  ∀ s : State,
    (∀ w, s.fault ≠ 0#3 → perform w s = .next s) ∧
    (∀ w e, s.fault = 0#3 → decode w = .error e → perform w s = .next { s with fault := 1#3 }) ∧
    (∀ w i, s.fault = 0#3 → decode w = .ok i → perform w s = exec i s) ∧
    (∀ mode (g p l : U6),
      (s.initDone = true → exec (.init mode g p l) s = .next { s with fault := 3#3 }) ∧
      (s.initDone = false →
        ¬ (1 ≤ g.toNat ∧ g.toNat ≤ 32 ∧ 1 ≤ p.toNat ∧ p.toNat ≤ 32 ∧ 1 ≤ l.toNat ∧ l.toNat ≤ 32) →
        exec (.init mode g p l) s = .next { s with fault := 4#3 }) ∧
      (s.initDone = false → 1 ≤ g.toNat → g.toNat ≤ 32 → 1 ≤ p.toNat → p.toNat ≤ 32 →
        1 ≤ l.toNat → l.toNat ≤ 32 →
        ∃ t, exec (.init mode g p l) s = .next t ∧ t.fault = s.fault)) ∧
    (∀ pc,
      (s.initDone = false → exec (.predict pc) s = .next { s with fault := 2#3 }) ∧
      (s.initDone = true → s.pending = true →
        exec (.predict pc) s = .next { s with fault := 5#3 }) ∧
      (s.initDone = true → s.pending = false → ∀ t, exec (.predict pc) s = .next t →
        t.fault = s.fault)) ∧
    ∀ o,
      (s.initDone = false → exec (.train o) s = .next { s with fault := 2#3 }) ∧
      (s.initDone = true → s.pending = false →
        exec (.train o) s = .next { s with fault := 6#3 }) ∧
      (s.initDone = true → s.pending = true → ∀ t, exec (.train o) s = .next t →
        t.fault = s.fault)

/-- R231: a command that raises a fault writes FAULT and nothing else, and gives no response. -/
def Obligations.FaultsArePrecise : Prop :=
  ∀ (s t : State) (w : CommandWord) (rest : List Input), s.inputs = .command w :: rest →
    step s = .next t → t.fault ≠ s.fault → t = { s with inputs := rest, fault := t.fault }

/-- R25: FAULT resets to NONE; a command writes it only while it is NONE and only with a code 1 to 6;
and nothing else writes it but reset. -/
def Obligations.FaultRegisterRule : Prop :=
  State.reset.fault = 0#3 ∧
  ∀ s t : State, step s = .next t → t.fault ≠ s.fault →
    (∃ w rest, s.inputs = .command w :: rest) ∧ s.fault = 0#3 ∧
      1 ≤ t.fault.toNat ∧ t.fault.toNat ≤ 6 ∨
    (∃ rest, s.inputs = .reset :: rest) ∧ t.fault = 0#3

/-- R23: INIT_DONE resets to 0, a successful INIT sets it, and nothing clears it but reset. -/
def Obligations.InitDoneRule : Prop :=
  State.reset.initDone = false ∧
  (∀ (s : State) mode (g p l : U6), s.initDone = false → 1 ≤ g.toNat → g.toNat ≤ 32 →
    1 ≤ p.toNat → p.toNat ≤ 32 → 1 ≤ l.toNat → l.toNat ≤ 32 →
    ∃ t, exec (.init mode g p l) s = .next t ∧ t.initDone = true) ∧
  ∀ s t : State, step s = .next t → s.initDone = true → t.initDone = false →
    ∃ rest, s.inputs = .reset :: rest

/-- R24: PENDING resets to 0; INIT writes 0; a successful PREDICT sets it and a successful TRAIN clears
it, in every mode. -/
def Obligations.PendingRule : Prop :=
  State.reset.pending = false ∧
  (∀ (s : State) mode (g p l : U6), s.initDone = false → 1 ≤ g.toNat → g.toNat ≤ 32 →
    1 ≤ p.toNat → p.toNat ≤ 32 → 1 ≤ l.toNat → l.toNat ≤ 32 →
    ∃ t, exec (.init mode g p l) s = .next t ∧ t.pending = false) ∧
  (∀ (s t : State) pc, s.initDone = true → s.pending = false →
    exec (.predict pc) s = .next t → t.pending = true) ∧
  ∀ (s t : State) o, s.initDone = true → s.pending = true →
    exec (.train o) s = .next t → t.pending = false

/-- R207, with R21 and R22 for the other configuration registers: between resets only one INIT can
write MODE, and once it has, no command changes the configuration and a second INIT is refused. -/
def Obligations.ConfigurationNeverChanges : Prop :=
  ∀ (s t : State) (w : CommandWord) (rest : List Input), s.inputs = .command w :: rest →
    step s = .next t →
    (s.initDone = true → t.mode = s.mode ∧ t.gbits = s.gbits ∧ t.pbits = s.pbits ∧
      t.lbits = s.lbits ∧ t.theta = s.theta) ∧
    (s.initDone = true → s.fault = 0#3 → (∃ mode g p l, decode w = .ok (.init mode g p l)) →
      t.fault = 3#3) ∧
    (t.mode ≠ s.mode → s.initDone = false ∧ t.initDone = true ∧
      ∃ mode g p l, decode w = .ok (.init mode g p l) ∧ t.mode = some mode)

/-- R39: a table is written only by INIT and by its own model's TRAIN; PREDICT writes no table and no
history, only PENDING and the token (and its response, or the fault that turns it away). -/
def Obligations.TablesHaveOneOwner : Prop :=
  ∀ (s t : State) (w : CommandWord) (rest : List Input), s.inputs = .command w :: rest →
    step s = .next t →
    (t.gpht ≠ s.gpht → (∃ mode g p l, decode w = .ok (.init mode g p l)) ∨
      ((∃ o, decode w = .ok (.train o)) ∧ s.mode = some (modeValue .GSHARE))) ∧
    (t.tgpt ≠ s.tgpt ∨ t.tlpt ≠ s.tlpt ∨ t.tmeta ≠ s.tmeta ∨ t.lht ≠ s.lht →
      (∃ mode g p l, decode w = .ok (.init mode g p l)) ∨
      ((∃ o, decode w = .ok (.train o)) ∧ s.mode = some (modeValue .TOURNAMENT))) ∧
    (t.pbias ≠ s.pbias ∨ t.pw ≠ s.pw → (∃ mode g p l, decode w = .ok (.init mode g p l)) ∨
      ((∃ o, decode w = .ok (.train o)) ∧ s.mode = some (modeValue .CUSTOM))) ∧
    ∀ pc, decode w = .ok (.predict pc) → t = { s with
      inputs := rest, pending := t.pending, tokGidx := t.tokGidx, tokPidx := t.tokPidx,
      tokLidx := t.tokLidx, tokGpred := t.tokGpred, tokLpred := t.tokLpred, tokSum := t.tokSum,
      resp := t.resp, fault := t.fault }

/-- R26: a token register is written by no command but a successful PREDICT in a mode of its row; INIT
and TRAIN leave every one as it is. -/
def Obligations.TokenWrittenByPredict : Prop :=
  ∀ (s t : State) (w : CommandWord) (rest : List Input), s.inputs = .command w :: rest →
    step s = .next t →
    (t.tokGidx ≠ s.tokGidx ∨ t.tokPidx ≠ s.tokPidx ∨ t.tokLidx ≠ s.tokLidx ∨
      t.tokGpred ≠ s.tokGpred ∨ t.tokLpred ≠ s.tokLpred ∨ t.tokSum ≠ s.tokSum →
      (∃ pc, decode w = .ok (.predict pc)) ∧ t.fault = 0#3 ∧ t.pending = true) ∧
    (t.tokGidx ≠ s.tokGidx →
      s.mode = some (modeValue .GSHARE) ∨ s.mode = some (modeValue .TOURNAMENT)) ∧
    (t.tokPidx ≠ s.tokPidx →
      s.mode = some (modeValue .TOURNAMENT) ∨ s.mode = some (modeValue .CUSTOM)) ∧
    (t.tokLidx ≠ s.tokLidx ∨ t.tokGpred ≠ s.tokGpred ∨ t.tokLpred ≠ s.tokLpred →
      s.mode = some (modeValue .TOURNAMENT)) ∧
    (t.tokSum ≠ s.tokSum → s.mode = some (modeValue .CUSTOM))

/-- R26, R41: a token is read only while PENDING = 1. Two blocks with no branch pending that differ in
their token registers alone take every step alike: the states after it differ in those registers
alone. -/
def Obligations.StaleTokenIsNeverRead : Prop :=
  ∀ s t s' : State, s.pending = false →
    s' = { s with
      tokGidx := s'.tokGidx, tokPidx := s'.tokPidx, tokLidx := s'.tokLidx,
      tokGpred := s'.tokGpred, tokLpred := s'.tokLpred, tokSum := s'.tokSum } →
    step s = .next t →
    ∃ t', step s' = .next t' ∧ t' = { t with
      tokGidx := t'.tokGidx, tokPidx := t'.tokPidx, tokLidx := t'.tokLidx,
      tokGpred := t'.tokGpred, tokLpred := t'.tokLpred, tokSum := t'.tokSum }

/-- R71: a PREDICT that raises no fault gives exactly one response, and every other command none. -/
def Obligations.OneResponsePerPredict : Prop :=
  ∀ (s t : State) (w : CommandWord) (rest : List Input), s.inputs = .command w :: rest →
    s.fault = 0#3 → step s = .next t →
    (t.fault = 0#3 → ∀ pc, decode w = .ok (.predict pc) →
      ∃ b, t.resp = s.resp ++ [b] ∧ respPort s t = some b) ∧
    ((t.fault ≠ 0#3 ∨ ∀ pc, decode w ≠ .ok (.predict pc)) →
      t.resp = s.resp ∧ respPort s t = none)

/-! ### Primitives (40_primitives.md, 43_perceptron.md) -/

/-- R100: the shift drops the top bit and takes the outcome in at bit 0. -/
def Obligations.HistoryShift : Prop :=
  ∀ (h : U32) (t : Bit) (w : Nat), 1 ≤ w → w ≤ 32 →
    (histShift h t w).toNat = (2 * h.toNat + t.toNat) % 2 ^ w ∧
    (histShift h t w).toNat ≤ 2 ^ w - 1 ∧
    (histShift h t w).getLsbD 0 = t ∧
    (∀ i, 1 ≤ i → i < w → (histShift h t w).getLsbD i = h.getLsbD (i - 1)) ∧
    ∀ i, w ≤ i → (histShift h t w).getLsbD i = false

/-- R102: a masked index is the low bits, so it is in range, and so is the XOR of two. -/
def Obligations.IndexMask : Prop :=
  ∀ (v u : U32) (n : Nat), 1 ≤ n → n ≤ 32 →
    (idx v n).toNat = v.toNat % 2 ^ n ∧ (idx v n).toNat ≤ 2 ^ n - 1 ∧
    (idx v n ^^^ idx u n).toNat ≤ 2 ^ n - 1 ∧ (n = 32 → idx v n = v)

/-- R103: the counter steps by one and clamps, so n steps one way clamp too; its top bit is the
prediction. -/
def Obligations.CounterSaturates : Prop :=
  ∀ (c : Counter) (n : Nat),
    ((fun c => satUpdate c true)^[n] c).toNat = min (c.toNat + n) 3 ∧
    ((fun c => satUpdate c false)^[n] c).toNat = c.toNat - n ∧
    (satInc c).toNat = min (c.toNat + 1) 3 ∧ (satDec c).toNat = c.toNat - 1 ∧
    (ctrPred c = true ↔ 2 ≤ c.toNat)

/-- R105: a weight in [-127, 127] steps by one and clamps, so n steps one way clamp too, and −128 is
never made. -/
def Obligations.WeightSaturates : Prop :=
  ∀ (x : Weight) (n : Nat), -127 ≤ x.toInt → x.toInt ≤ 127 →
    (wInc^[n] x).toInt = min (x.toInt + n) 127 ∧ (wDec^[n] x).toInt = max (x.toInt - n) (-127)

/-- R171: the loop is the dot product of the weights with the history as ±1, plus the bias. -/
def Obligations.PerceptronSumIsDotProduct : Prop :=
  ∀ (bias : Weight) (ws : List Weight) (h : U32),
    percSum bias ws h = bias.toInt +
      ∑ i ∈ Finset.range ws.length,
        (2 * ((h.getLsbD i).toNat : Int) - 1) * (ws.getD i 0#8).toInt

/-- R173: with every weight in range the sum is at most 127 · (GBITS + 1), and TOK_SUM holds it
without loss. -/
def Obligations.PerceptronSumFits : Prop :=
  ∀ (bias : Weight) (ws : List Weight) (h : U32), inBound bias → (∀ w ∈ ws, inBound w) →
    ws.length ≤ 32 →
    |percSum bias ws h| ≤ 127 * ((ws.length : Int) + 1) ∧
    (BitVec.ofInt 32 (percSum bias ws h)).toInt = percSum bias ws h

/-- R181: the gate opens on a misprediction, and on a magnitude of at most theta. -/
def Obligations.TrainingGate : Prop :=
  ∀ (sum : Int) (t : Bit) (theta : Int),
    percGate sum t theta = true ↔ (0 ≤ sum ∧ t = false) ∨ (sum < 0 ∧ t = true) ∨ |sum| ≤ theta

/-! ### Tables (20_memory.md) -/

/-- R52: a write changes exactly one entry; a lane's write changes exactly that lane of PW. -/
def Obligations.TableWriteChangesOneEntry : Prop :=
  (∀ (α : Type) [DecidableEq α] (t : Table α) (i : Nat) (v : α), i < 2 ^ t.bits →
    ∃ t', t.write i v = some t' ∧ t'.bits = t.bits ∧
      ∀ j, t'.read j = if j = i then some v else t.read j) ∧
  ∀ (t : Table (List Weight)) (b k : Nat) (v : Weight) (row : List Weight),
    t.read b = some row → k < row.length →
    ∃ t', t.write b (row.set k v) = some t' ∧
      ∀ b' k', weightAt (some t') b' k' =
        if b' = b ∧ k' = k then some v else weightAt (some t) b' k'

/-- R53: a masked index is in range, and an index out of range is a model fault, never a wrap or a
clamp. -/
def Obligations.IndexOutOfRangeIsModelFault : Prop :=
  ∀ (α : Type) [DecidableEq α] (e : Element) (t : Table α) (i : U32) (v : α),
    (2 ^ t.bits ≤ i.toNat →
      tableRead e (some t) i = .error (.indexOutOfRange e) ∧
      tableWrite e (some t) i v = .error (.indexOutOfRange e)) ∧
    (∀ u : U32, ∃ a t', tableRead e (some t) (idx u t.bits) = .ok a ∧
      tableWrite e (some t) (idx u t.bits) v = .ok t') ∧
    ∀ u x : U32, ∃ a t', tableRead e (some t) (idx u t.bits ^^^ idx x t.bits) = .ok a ∧
      tableWrite e (some t) (idx u t.bits ^^^ idx x t.bits) v = .ok t'

/-- The model's own form (log entry 5): a filled table has the canonical form, a write keeps it, and
two tables in it that read alike are the same data. -/
def Obligations.TableFormIsCanonical : Prop :=
  ∀ (α : Type) [DecidableEq α],
    (∀ (n : Nat) (v : α), (Table.filled n v).wf) ∧
    (∀ (t t' : Table α) (i : Nat) (v : α), t.wf → t.write i v = some t' → t'.wf) ∧
    ∀ t u : Table α, t.wf → u.wf → t.bits = u.bits → t.fill = u.fill →
      (∀ j, t.read j = u.read j) → t = u

/-- R104: SctPredict reads the top bit; SctTrain and SctToward step entry i and no other. -/
def Obligations.CounterTableOperations : Prop :=
  ∀ (e : Element) (t : Table Counter) (i : U32) (c : Counter), t.read i.toNat = some c →
    sctPredict e (some t) i = .ok (c.getLsbD 1) ∧
    ∀ d : Bit, ∃ t', sctTrain e (some t) i d = .ok t' ∧
      ∀ j, t'.read j =
        if j = i.toNat then some (if d then satInc c else satDec c) else t.read j

/-! ### INIT (44_dispatcher.md) -/

/-- R202, R144: what a successful INIT writes in each mode, and that it writes nothing else. -/
def Obligations.InitWritesModeState : Prop :=
  ∀ (s : State) (mode : U32) (g p l : U6), s.initDone = false →
    1 ≤ g.toNat → g.toNat ≤ 32 → 1 ≤ p.toNat → p.toNat ≤ 32 → 1 ≤ l.toNat → l.toNat ≤ 32 →
    ∃ t, exec (.init mode g p l) s = .next t ∧
      t = { s with
        initDone := true, pending := false, mode := some mode, gbits := some g, pbits := some p,
        lbits := some l, ghr := t.ghr, theta := t.theta, gpht := t.gpht, tgpt := t.tgpt,
        tlpt := t.tlpt, tmeta := t.tmeta, lht := t.lht, pbias := t.pbias, pw := t.pw } ∧
      (mode = modeValue .GSHARE → t.ghr = some 0#32 ∧
        (∀ j, entryAt t.gpht j = if j < 2 ^ g.toNat then some 1#2 else none)) ∧
      (mode ≠ modeValue .GSHARE → t.gpht = s.gpht) ∧
      (mode = modeValue .TOURNAMENT → t.ghr = some 0#32 ∧
        (∀ j, entryAt t.tgpt j = if j < 2 ^ g.toNat then some 1#2 else none) ∧
        (∀ j, entryAt t.tmeta j = if j < 2 ^ g.toNat then some 1#2 else none) ∧
        (∀ j, entryAt t.tlpt j = if j < 2 ^ l.toNat then some 1#2 else none) ∧
        ∀ j, entryAt t.lht j = if j < 2 ^ p.toNat then some 0#32 else none) ∧
      (mode ≠ modeValue .TOURNAMENT →
        t.tgpt = s.tgpt ∧ t.tlpt = s.tlpt ∧ t.tmeta = s.tmeta ∧ t.lht = s.lht) ∧
      (mode = modeValue .CUSTOM → t.ghr = some 0#32 ∧
        (∃ th, s.thetaFn[g.toNat]? = some th ∧ t.theta = some th) ∧
        (∀ b, entryAt t.pbias b = if b < 2 ^ p.toNat then some 1#8 else none) ∧
        ∀ b i, weightAt t.pw b i =
          if b < 2 ^ p.toNat ∧ i < g.toNat then some 0#8 else none) ∧
      (mode ≠ modeValue .CUSTOM → t.theta = s.theta ∧ t.pbias = s.pbias ∧ t.pw = s.pw) ∧
      (mode ≠ modeValue .GSHARE → mode ≠ modeValue .TOURNAMENT → mode ≠ modeValue .CUSTOM →
        t.ghr = s.ghr)

/-- R9: the default `THETA_FN` of the reset state. The formula is the spec's from general knowledge
(log entry 3), and no other statement rests on it. -/
def Obligations.DefaultTheta : Prop :=
  ∀ w : Nat, w ≤ 32 → State.reset.thetaFn[w]? = some ((193 * (w : Int) + 1400) / 100)

/-! ### STATIC and unrecognized modes (44_dispatcher.md) -/

/-- The mode numbers (R200), which the spec takes from general knowledge (D5, G2; log entry 4,
PRESUMED). -/
def Obligations.ModeNumbers : Prop :=
  modeOf 0#32 = .static ∧ modeOf 1#32 = .gshare ∧ modeOf 2#32 = .tournament ∧
  modeOf 3#32 = .custom ∧ ∀ m : U32, 4 ≤ m.toNat ↔ modeOf m = .unrecognized

/-- R205: STATIC always predicts taken, trains nothing, and keeps the contract's checks. -/
def Obligations.StaticMode : Prop :=
  ∀ s : State, s.initDone = true → s.mode = some (modeValue .STATIC) →
    (s.pending = false →
      (∀ pc, exec (.predict pc) s = .next { s with resp := s.resp ++ [true], pending := true }) ∧
      ∀ o, exec (.train o) s = .next { s with fault := 6#3 }) ∧
    (s.pending = true →
      (∀ o, exec (.train o) s = .next { s with pending := false }) ∧
      ∀ pc, exec (.predict pc) s = .next { s with fault := 5#3 })

/-- R206: a mode that has no name predicts not taken, trains nothing, and raises no fault of its own. -/
def Obligations.UnrecognizedMode : Prop :=
  ∀ (s : State) (m : U32), s.initDone = true → s.mode = some m → (∀ n, m ≠ modeValue n) →
    (s.pending = false →
      ∀ pc, exec (.predict pc) s = .next { s with resp := s.resp ++ [false], pending := true }) ∧
    (s.pending = true → ∀ o, exec (.train o) s = .next { s with pending := false })

/-! ### Gshare (41_gshare.md) -/

/-- R120: the index, the token, the response, and that nothing else changes. -/
def Obligations.GsharePredict : Prop :=
  ∀ (s : State) (pc h gidx : U32) (g : U6) (c : Counter),
    s.initDone = true → s.pending = false → s.mode = some (modeValue .GSHARE) → s.gbits = some g →
    s.ghr = some h →
    gidx.toNat = (h.toNat % 2 ^ g.toNat) ^^^ (pc.toNat % 2 ^ g.toNat) →
    entryAt s.gpht gidx.toNat = some c →
    exec (.predict pc) s =
      .next { s with tokGidx := some gidx, resp := s.resp ++ [c.getLsbD 1], pending := true }

/-- R121: the counter the last PREDICT addressed steps, the outcome is shifted into GHR, and nothing
else changes. -/
def Obligations.GshareTrain : Prop :=
  ∀ (s : State) (o : Bit) (h gidx : U32) (g : U6) (c : Counter),
    s.initDone = true → s.pending = true → s.mode = some (modeValue .GSHARE) → s.gbits = some g →
    s.ghr = some h → s.tokGidx = some gidx → entryAt s.gpht gidx.toNat = some c →
    ∃ t, exec (.train o) s = .next { s with
        gpht := some t, ghr := some (histShift h o g.toNat), pending := false } ∧
      ∀ j, t.read j =
        if j = gidx.toNat then some (if o then satInc c else satDec c) else entryAt s.gpht j

/-! ### Tournament (42_tournament.md) -/

/-- R140: the indices, the two predictions, the meta choice between them, and that nothing else
changes. -/
def Obligations.TournamentPredict : Prop :=
  ∀ (s : State) (pc h gidx pidx lh lidx : U32) (g p l : U6) (cm cl cg : Counter),
    s.initDone = true → s.pending = false → s.mode = some (modeValue .TOURNAMENT) →
    s.gbits = some g → s.pbits = some p → s.lbits = some l → s.ghr = some h →
    gidx.toNat = h.toNat % 2 ^ g.toNat → pidx.toNat = pc.toNat % 2 ^ p.toNat →
    entryAt s.lht pidx.toNat = some lh → lidx.toNat = lh.toNat % 2 ^ l.toNat →
    entryAt s.tmeta gidx.toNat = some cm → entryAt s.tlpt lidx.toNat = some cl →
    entryAt s.tgpt gidx.toNat = some cg →
    exec (.predict pc) s = .next { s with
      tokGidx := some gidx, tokPidx := some pidx, tokLidx := some lidx,
      tokGpred := some (cg.getLsbD 1), tokLpred := some (cl.getLsbD 1),
      resp := s.resp ++ [if cm.getLsbD 1 then cl.getLsbD 1 else cg.getLsbD 1],
      pending := true }

/-- R141: both counters step, the meta counter moves toward the one predictor that was right alone,
both histories shift, and nothing else changes. -/
def Obligations.TournamentTrain : Prop :=
  ∀ (s : State) (o gp lp : Bit) (h gidx pidx lidx lh : U32) (g l : U6) (cm cl cg : Counter),
    s.initDone = true → s.pending = true → s.mode = some (modeValue .TOURNAMENT) →
    s.gbits = some g → s.lbits = some l → s.ghr = some h →
    s.tokGidx = some gidx → s.tokPidx = some pidx → s.tokLidx = some lidx →
    s.tokGpred = some gp → s.tokLpred = some lp →
    entryAt s.tgpt gidx.toNat = some cg → entryAt s.tlpt lidx.toNat = some cl →
    entryAt s.tmeta gidx.toNat = some cm → entryAt s.lht pidx.toNat = some lh →
    ∃ tg tl tm lt, exec (.train o) s = .next { s with
        tgpt := some tg, tlpt := some tl, tmeta := some tm, lht := some lt,
        ghr := some (histShift h o g.toNat), pending := false } ∧
      (∀ j, tg.read j =
        if j = gidx.toNat then some (if o then satInc cg else satDec cg) else entryAt s.tgpt j) ∧
      (∀ j, tl.read j =
        if j = lidx.toNat then some (if o then satInc cl else satDec cl) else entryAt s.tlpt j) ∧
      (∀ j, tm.read j =
        if j = gidx.toNat then
          some (if lp = o ∧ gp ≠ o then satInc cm else if gp = o ∧ lp ≠ o then satDec cm else cm)
        else entryAt s.tmeta j) ∧
      ∀ j, lt.read j =
        if j = pidx.toNat then some (histShift lh o l.toNat) else entryAt s.lht j

/-- R142: when the two predictions agree, TRAIN leaves the meta table as it is, whatever the
outcome. -/
def Obligations.MetaTieBreak : Prop :=
  ∀ (s t : State) (o : Bit), s.tokLpred = s.tokGpred → exec (.train o) s = .next t →
    t.tmeta = s.tmeta

/-! ### Perceptron (43_perceptron.md) -/

/-- R170: the bucket, the retained sum, the response (taken at a sum of 0), and that nothing else
changes. -/
def Obligations.CustomPredict : Prop :=
  ∀ (s : State) (pc h b : U32) (g p : U6) (bias : Weight) (ws : List Weight),
    s.initDone = true → s.pending = false → s.mode = some (modeValue .CUSTOM) →
    s.gbits = some g → s.pbits = some p → s.ghr = some h → b.toNat = pc.toNat % 2 ^ p.toNat →
    entryAt s.pbias b.toNat = some bias → entryAt s.pw b.toNat = some ws →
    ws.length = g.toNat →
    ∃ x : SumWord, exec (.predict pc) s = .next { s with
        tokPidx := some b, tokSum := some x,
        resp := s.resp ++ [decide (0 ≤ percSum bias ws h)], pending := true } ∧
      x.toInt = percSum bias ws h

/-- R180, R182: a closed gate changes only GHR; an open one steps the bias toward the outcome and each
weight by its history bit before the shift; nothing else changes. -/
def Obligations.CustomTrain : Prop :=
  ∀ (s : State) (o : Bit) (h b : U32) (g : U6) (theta : Int) (x : SumWord) (bias : Weight)
    (ws : List Weight),
    s.initDone = true → s.pending = true → s.mode = some (modeValue .CUSTOM) →
    s.gbits = some g → s.ghr = some h → s.theta = some theta → s.tokPidx = some b →
    s.tokSum = some x → entryAt s.pbias b.toNat = some bias → entryAt s.pw b.toNat = some ws →
    ws.length = g.toNat →
    ((decide (0 ≤ x.toInt) = o ∧ theta < |x.toInt|) →
      exec (.train o) s =
        .next { s with ghr := some (histShift h o g.toNat), pending := false }) ∧
    (¬ (decide (0 ≤ x.toInt) = o ∧ theta < |x.toInt|) →
      ∃ tb tw, exec (.train o) s = .next { s with
          pbias := some tb, pw := some tw, ghr := some (histShift h o g.toNat),
          pending := false } ∧
        (∀ j, tb.read j =
          if j = b.toNat then some (if o then wInc bias else wDec bias) else entryAt s.pbias j) ∧
        ∀ j k, weightAt (some tw) j k =
          if j = b.toNat then
            ws[k]?.map fun w => if h.getLsbD k = o then wInc w else wDec w
          else weightAt s.pw j k)

/-! ### Every command completes from a reachable state -/

/-- R203, R39, R71: PREDICT completes in every mode: one response, PENDING set, and no table, history,
configuration or fault changed. -/
def Obligations.PredictCompletes : Prop :=
  ∀ (s : State) (pc : U32), BlockInv s → s.initDone = true → s.pending = false →
    ∃ t b, exec (.predict pc) s = .next t ∧ t = { s with
      pending := true, resp := s.resp ++ [b], tokGidx := t.tokGidx, tokPidx := t.tokPidx,
      tokLidx := t.tokLidx, tokGpred := t.tokGpred, tokLpred := t.tokLpred, tokSum := t.tokSum }

/-- R204, R27, R71: TRAIN completes in every mode: PENDING cleared, the outcome shifted into GHR where
there is one, and no response, configuration, token or fault changed. -/
def Obligations.TrainCompletes : Prop :=
  ∀ (s : State) (o : Bit) (g : U6), BlockInv s → s.initDone = true → s.pending = true →
    s.gbits = some g →
    ∃ t, exec (.train o) s = .next t ∧ t = { s with
      pending := false, ghr := s.ghr.map fun h => histShift h o g.toNat,
      gpht := t.gpht, tgpt := t.tgpt, tlpt := t.tlpt, tmeta := t.tmeta, lht := t.lht,
      pbias := t.pbias, pw := t.pw }

/-- R122, R144, R170: the first prediction after INIT, at any pc: gshare and tournament not taken, the
perceptron taken. -/
def Obligations.FirstPrediction : Prop :=
  ∀ (s : State) (mode : U32) (g p l : U6) (pc : U32), s.initDone = false →
    1 ≤ g.toNat → g.toNat ≤ 32 → 1 ≤ p.toNat → p.toNat ≤ 32 → 1 ≤ l.toNat → l.toNat ≤ 32 →
    ∃ t u, exec (.init mode g p l) s = .next t ∧ exec (.predict pc) t = .next u ∧
      u.resp = s.resp ++ [decide (mode = modeValue .STATIC ∨ mode = modeValue .CUSTOM)]

/-! ### The invariant and whole-machine claims (10_state.md) -/

/-- R261: the reset state meets the invariant. -/
def Obligations.ResetMeetsInvariant : Prop := BlockInv State.reset

/-- R35, R37: every step keeps the invariant: exactly the active mode's state, every history, entry,
weight and token index in its range, and the canonical form of every table. -/
def Obligations.StepKeepsInvariant : Prop :=
  ∀ s t : State, BlockInv s → step s = .next t → BlockInv t

/-- R42, R53: from a state meeting the invariant no step reads an absent element or an index out of
range: every step, whatever is presented, answers a next state. -/
def Obligations.StepNeverStops : Prop :=
  ∀ s : State, BlockInv s → ∃ t, step s = .next t

/-- R182, D27: while a branch is pending, the token stays what a recomputation would give. -/
def Obligations.StepKeepsTokenFresh : Prop :=
  ∀ s t : State, TokenFresh s → step s = .next t → TokenFresh t

/-- The model's own form (log entry 5): every step, from any state, keeps every table canonical. -/
def Obligations.StepKeepsTablesCanonical : Prop :=
  ∀ s t : State, Memory.wf s → step s = .next t → Memory.wf t

/-- R263, R265, R269: strictly alternating PREDICT and TRAIN, for any branches and outcomes, ends well
with one response a branch. -/
def Obligations.AlternationEndsWell : Prop :=
  ∀ (s : State) (bs : List (U32 × Bit)), BlockInv s → s.initDone = true → s.pending = false →
    s.fault = 0#3 → s.inputs = branchInputs bs →
    ∃ t : State, run (2 * bs.length) s = .next t ∧ t.endedWell ∧
      t.resp.length = s.resp.length + bs.length ∧ s.resp <+: t.resp ∧ t.mode = s.mode

/-- R120, R140, R170: the bits of pc above the index width have no effect at all. -/
def Obligations.HighPcBitsHaveNoEffect : Prop :=
  ∀ (s : State) (pc pc' : U32) (n : U6),
    ((s.mode = some (modeValue .GSHARE) ∧ s.gbits = some n) ∨
      ((s.mode = some (modeValue .TOURNAMENT) ∨ s.mode = some (modeValue .CUSTOM)) ∧
        s.pbits = some n)) →
    pc.toNat % 2 ^ n.toNat = pc'.toNat % 2 ^ n.toNat →
    exec (.predict pc) s = exec (.predict pc') s
end

