-- ==== Sys2Proof/Laws/Decode.lean ====
section
/-! SUPPORT. What the decoder can answer, said once (30_encoding.md R77), and the number an encoded
word is. -/

namespace Sys2Proof

/-- The decoder's four outcomes, each with the word's form. -/
theorem decode_cases (w : CommandWord) :
    (opField w = 1#2 ∧ w &&& initReserved = 0 ∧ decode w = .ok (initFields w)) ∨
    (opField w = 2#2 ∧ w.extractLsb' 2 30 = 0 ∧
      decode w = .ok (.predict (w.extractLsb' 32 32))) ∨
    (opField w = 3#2 ∧ w.extractLsb' 3 61 = 0 ∧ decode w = .ok (.train (w.getLsbD 2))) ∨
    ((∃ e, decode w = .error e) ∧
      (opField w = 0#2 ∨ (opField w = 1#2 ∧ w &&& initReserved ≠ 0) ∨
        (opField w = 2#2 ∧ w.extractLsb' 2 30 ≠ 0) ∨
        (opField w = 3#2 ∧ w.extractLsb' 3 61 ≠ 0))) := by
  have h4 : opField w = 0#2 ∨ opField w = 1#2 ∨ opField w = 2#2 ∨ opField w = 3#2 := by
    generalize opField w = x
    revert x
    decide
  rcases h4 with h | h | h | h
  · exact .inr (.inr (.inr ⟨⟨.opZero, by simp [decode, h]⟩, .inl h⟩))
  · by_cases hr : w &&& initReserved = 0
    · exact .inl ⟨h, hr, by simp [decode, h, hr]⟩
    · exact .inr (.inr (.inr ⟨⟨.reservedInit, by simp [decode, h]; exact hr⟩, .inr (.inl ⟨h, hr⟩)⟩))
  · by_cases hr : w.extractLsb' 2 30 = 0
    · exact .inr (.inl ⟨h, hr, by simp [decode, h, hr]⟩)
    · exact .inr (.inr (.inr ⟨⟨.reservedPredict, by simp [decode, h]; exact hr⟩,
        .inr (.inr (.inl ⟨h, hr⟩))⟩))
  · by_cases hr : w.extractLsb' 3 61 = 0
    · exact .inr (.inr (.inl ⟨h, hr, by simp [decode, h, hr]⟩))
    · exact .inr (.inr (.inr ⟨⟨.reservedTrain, by simp [decode, h]; exact hr⟩,
        .inr (.inr (.inr ⟨h, hr⟩))⟩))

theorem shl_or_eq_add {x y k : Nat} (h : y < 2 ^ k) : x <<< k ||| y = x * 2 ^ k + y := by
  rw [← Nat.shiftLeft_add_eq_or_of_lt h, Nat.shiftLeft_eq]

/-- An INIT word as a number (R73). -/
theorem encode_init_toNat (mode : U32) (g p l : U6) :
    (encode (.init mode g p l)).toNat =
      2 ^ 32 * mode.toNat + 2 ^ 24 * l.toNat + 2 ^ 16 * p.toNat + 2 ^ 8 * g.toNat + 1 := by
  have := g.isLt
  have := p.isLt
  have := l.isLt
  simp only [encode, BitVec.toNat_append, BitVec.toNat_ofNat, Nat.reduceMod, Nat.reducePow,
    Nat.zero_mod, Nat.or_zero]
  rw [shl_or_eq_add (y := l.toNat) (k := 6) (by omega),
    shl_or_eq_add (y := p.toNat) (k := 6) (by omega),
    shl_or_eq_add (y := g.toNat) (k := 6) (by omega), shl_or_eq_add (k := 2) (by omega)]
  simp only [Nat.shiftLeft_eq]
  ring

/-- A PREDICT word as a number (R74). -/
theorem encode_predict_toNat (pc : U32) : (encode (.predict pc)).toNat = 2 ^ 32 * pc.toNat + 2 := by
  simp only [encode, BitVec.toNat_append, BitVec.toNat_ofNat, Nat.reduceMod, Nat.reducePow,
    Nat.zero_mod, Nat.or_zero]
  rw [shl_or_eq_add (k := 2) (by omega)]
  simp only [Nat.shiftLeft_eq]
  ring

/-- A TRAIN word as a number (R75). -/
theorem encode_train_toNat (t : Bit) : (encode (.train t)).toNat = 4 * t.toNat + 3 := by
  cases t <;> rfl

end Sys2Proof
end

