-- ==== Sys2Proof/Laws/Primitives.lean ====
section
/-! SUPPORT. The primitives of 40_primitives.md down to arithmetic: what each returns, and the range
it returns in. -/

namespace Sys2Proof.Machine

/-! ### Masks, indices, histories -/

theorem and_mask (v n : Nat) : v &&& mask n = v % 2 ^ n := Nat.and_two_pow_sub_one_eq_mod v n

theorem le_mask_iff (v n : Nat) : v ≤ mask n ↔ v < 2 ^ n := by
  have := Nat.two_pow_pos n
  simp only [mask]
  omega

/-- `Idx` is the remainder by `2 ^ n` (R102). -/
theorem idx_toNat (v : U32) (n : Nat) : (idx v n).toNat = v.toNat % 2 ^ n := by
  have h : v.toNat % 2 ^ n < 2 ^ 32 := (Nat.mod_le _ _).trans_lt v.isLt
  rw [idx, and_mask, BitVec.toNat_ofNat, Nat.mod_eq_of_lt h]

theorem idx_lt (v : U32) (n : Nat) : (idx v n).toNat < 2 ^ n := by
  rw [idx_toNat]
  exact Nat.mod_lt _ (Nat.two_pow_pos n)

/-- A gshare index is in range (R120). -/
theorem idx_xor_lt (v u : U32) (n : Nat) : (idx v n ^^^ idx u n).toNat < 2 ^ n := by
  rw [BitVec.toNat_xor]
  exact Nat.xor_lt_two_pow (idx_lt v n) (idx_lt u n)

theorem idx_congr {v u : U32} {n : Nat} (h : v.toNat % 2 ^ n = u.toNat % 2 ^ n) :
    idx v n = idx u n := by
  apply BitVec.eq_of_toNat_eq
  rw [idx_toNat, idx_toNat, h]

theorem shl_or_toNat (h : Nat) (t : Bit) : h <<< 1 ||| t.toNat = 2 * h + t.toNat := by
  cases t
  · simp [Nat.shiftLeft_eq, Nat.mul_comm]
  · have : h <<< 1 ||| 1 = h <<< 1 + 1 :=
      (Nat.shiftLeft_add_eq_or_of_lt (i := 1) (by decide) h).symm
    simpa [Nat.shiftLeft_eq, Nat.mul_comm] using this

/-- `HistShift` is doubling, adding the outcome, and the remainder by `2 ^ w` (R100). -/
theorem histShift_toNat (h : U32) (t : Bit) {w : Nat} (hw : w ≤ 32) :
    (histShift h t w).toNat = (2 * h.toNat + t.toNat) % 2 ^ w := by
  have : (2 * h.toNat + t.toNat) % 2 ^ w < 2 ^ 32 :=
    (Nat.mod_lt _ (Nat.two_pow_pos w)).trans_le (Nat.pow_le_pow_right (by decide) hw)
  rw [histShift, shl_or_toNat, and_mask, BitVec.toNat_ofNat, Nat.mod_eq_of_lt this]

theorem histShift_lt (h : U32) (t : Bit) {w : Nat} (hw : w ≤ 32) :
    (histShift h t w).toNat < 2 ^ w := by
  rw [histShift_toNat h t hw]
  exact Nat.mod_lt _ (Nat.two_pow_pos w)

/-! ### Widths -/

theorem legalWidth_iff (w : U6) : legalWidth w = true ↔ 1 ≤ w.toNat ∧ w.toNat ≤ 32 := by
  rw [legalWidth, Bool.and_eq_true, decide_eq_true_eq, decide_eq_true_eq]
  rfl

/-! ### Counters -/

theorem satUpdate_true_toNat (c : Counter) : (satUpdate c true).toNat = min (c.toNat + 1) 3 := by
  revert c
  decide

theorem satUpdate_false_toNat (c : Counter) : (satUpdate c false).toNat = c.toNat - 1 := by
  revert c
  decide

theorem ctrPred_iff (c : Counter) : ctrPred c = true ↔ 2 ≤ c.toNat := by
  revert c
  decide

/-! ### Weights -/

theorem inBound_iff (x : Weight) : inBound x ↔ -127 ≤ x.toInt ∧ x.toInt ≤ 127 := Iff.rfl

theorem ofInt8_toInt {i : Int} (h₁ : -128 ≤ i) (h₂ : i ≤ 127) :
    (BitVec.ofInt 8 i).toInt = i :=
  BitVec.toInt_ofInt_eq_self (by decide) (by simpa using h₁) (by simp; omega)

/-- `WInc` on the weights in range (R105). -/
theorem wInc_toInt {x : Weight} (h : inBound x) : (wInc x).toInt = min (x.toInt + 1) 127 := by
  rw [inBound_iff] at h
  by_cases hc : x.toInt < 127
  · rw [show wInc x = BitVec.ofInt 8 (x.toInt + 1) from if_pos hc,
      ofInt8_toInt (by omega) (by omega)]
    omega
  · rw [show wInc x = BitVec.ofInt 8 127 from if_neg hc, ofInt8_toInt (by omega) (by omega)]
    omega

/-- `WDec` on the weights in range (R105). -/
theorem wDec_toInt {x : Weight} (h : inBound x) : (wDec x).toInt = max (x.toInt - 1) (-127) := by
  rw [inBound_iff] at h
  by_cases hc : x.toInt > -127
  · rw [show wDec x = BitVec.ofInt 8 (x.toInt - 1) from if_pos hc,
      ofInt8_toInt (by omega) (by omega)]
    omega
  · rw [show wDec x = BitVec.ofInt 8 (-127) from if_neg hc, ofInt8_toInt (by omega) (by omega)]
    omega

theorem wStep_inBound {x : Weight} (up : Bool) (h : inBound x) : inBound (wStep up x) := by
  have hi := wInc_toInt h
  have hd := wDec_toInt h
  rw [inBound_iff] at h ⊢
  cases up <;> simp only [wStep, if_true, Bool.false_eq_true, if_false] <;> omega

/-! ### The perceptron's lanes -/

theorem trainLanesFrom_length (h : U32) (t : Bit) (i : Nat) (ws : List Weight) :
    (trainLanesFrom h t i ws).length = ws.length := by
  induction ws generalizing i with
  | nil => rfl
  | cons w ws ih => simp [trainLanesFrom, ih]

@[simp] theorem trainLanes_length (h : U32) (t : Bit) (ws : List Weight) :
    (trainLanes h t ws).length = ws.length := trainLanesFrom_length h t 0 ws

theorem trainLanesFrom_getElem? (h : U32) (t : Bit) (i : Nat) (ws : List Weight) (k : Nat) :
    (trainLanesFrom h t i ws)[k]? = ws[k]?.map (wStep (histBit h (i + k) == t)) := by
  induction ws generalizing i k with
  | nil => simp [trainLanesFrom]
  | cons w ws ih =>
    cases k with
    | zero => simp [trainLanesFrom]
    | succ k => simp [trainLanesFrom, ih, Nat.add_comm, Nat.add_left_comm]

/-- Lane `k` after the weight loop (R180). -/
theorem trainLanes_getElem? (h : U32) (t : Bit) (ws : List Weight) (k : Nat) :
    (trainLanes h t ws)[k]? = ws[k]?.map (wStep (histBit h k == t)) := by
  rw [trainLanes, trainLanesFrom_getElem?, Nat.zero_add]

theorem trainLanesFrom_inBound (h : U32) (t : Bit) (i : Nat) {ws : List Weight}
    (hb : ∀ w ∈ ws, inBound w) : ∀ w ∈ trainLanesFrom h t i ws, inBound w := by
  induction ws generalizing i with
  | nil => simp [trainLanesFrom]
  | cons w ws ih =>
    intro x hx
    rcases List.mem_cons.1 hx with rfl | hx
    · exact wStep_inBound _ (hb w (List.mem_cons_self ..))
    · exact ih (i + 1) (fun y hy => hb y (List.mem_cons_of_mem _ hy)) x hx

theorem trainLanes_inBound (h : U32) (t : Bit) {ws : List Weight} (hb : ∀ w ∈ ws, inBound w) :
    ∀ w ∈ trainLanes h t ws, inBound w := trainLanesFrom_inBound h t 0 hb

/-- The gate, without the signs (R181). -/
theorem percGate_iff (sum : Int) (t : Bit) (theta : Int) :
    percGate sum t theta = true ↔ decide (0 ≤ sum) ≠ t ∨ |sum| ≤ theta := by
  have hp : pSign sum ≠ oSign t ↔ decide (0 ≤ sum) ≠ t := by
    by_cases hs : 0 ≤ sum <;> cases t <;> simp [pSign, oSign, hs]
  simp only [percGate, Bool.or_eq_true, decide_eq_true_eq, hp, Int.natCast_natAbs]

end Sys2Proof.Machine
end

