-- ==== Sys2Proof/Laws/State.lean ====
section
/-! SUPPORT. The fields of each named update of the state: what it writes, and that it writes nothing
else. -/

namespace Sys2Proof.Machine

/-! ### `State.respond` -/

@[simp] theorem State.respond_initDone (s : State) (b : Bit) : (s.respond b).initDone = s.initDone := rfl
@[simp] theorem State.respond_pending (s : State) (b : Bit) : (s.respond b).pending = s.pending := rfl
@[simp] theorem State.respond_fault (s : State) (b : Bit) : (s.respond b).fault = s.fault := rfl
@[simp] theorem State.respond_mode (s : State) (b : Bit) : (s.respond b).mode = s.mode := rfl
@[simp] theorem State.respond_gbits (s : State) (b : Bit) : (s.respond b).gbits = s.gbits := rfl
@[simp] theorem State.respond_pbits (s : State) (b : Bit) : (s.respond b).pbits = s.pbits := rfl
@[simp] theorem State.respond_lbits (s : State) (b : Bit) : (s.respond b).lbits = s.lbits := rfl
@[simp] theorem State.respond_theta (s : State) (b : Bit) : (s.respond b).theta = s.theta := rfl
@[simp] theorem State.respond_ghr (s : State) (b : Bit) : (s.respond b).ghr = s.ghr := rfl
@[simp] theorem State.respond_gpht (s : State) (b : Bit) : (s.respond b).gpht = s.gpht := rfl
@[simp] theorem State.respond_tgpt (s : State) (b : Bit) : (s.respond b).tgpt = s.tgpt := rfl
@[simp] theorem State.respond_tlpt (s : State) (b : Bit) : (s.respond b).tlpt = s.tlpt := rfl
@[simp] theorem State.respond_tmeta (s : State) (b : Bit) : (s.respond b).tmeta = s.tmeta := rfl
@[simp] theorem State.respond_lht (s : State) (b : Bit) : (s.respond b).lht = s.lht := rfl
@[simp] theorem State.respond_pbias (s : State) (b : Bit) : (s.respond b).pbias = s.pbias := rfl
@[simp] theorem State.respond_pw (s : State) (b : Bit) : (s.respond b).pw = s.pw := rfl
@[simp] theorem State.respond_tokGidx (s : State) (b : Bit) : (s.respond b).tokGidx = s.tokGidx := rfl
@[simp] theorem State.respond_tokPidx (s : State) (b : Bit) : (s.respond b).tokPidx = s.tokPidx := rfl
@[simp] theorem State.respond_tokLidx (s : State) (b : Bit) : (s.respond b).tokLidx = s.tokLidx := rfl
@[simp] theorem State.respond_tokGpred (s : State) (b : Bit) : (s.respond b).tokGpred = s.tokGpred := rfl
@[simp] theorem State.respond_tokLpred (s : State) (b : Bit) : (s.respond b).tokLpred = s.tokLpred := rfl
@[simp] theorem State.respond_tokSum (s : State) (b : Bit) : (s.respond b).tokSum = s.tokSum := rfl
@[simp] theorem State.respond_thetaFn (s : State) (b : Bit) : (s.respond b).thetaFn = s.thetaFn := rfl
@[simp] theorem State.respond_inputs (s : State) (b : Bit) : (s.respond b).inputs = s.inputs := rfl
@[simp] theorem State.respond_resp (s : State) (b : Bit) : (s.respond b).resp = s.resp ++ [b] := rfl

/-! ### `State.setPending` -/

@[simp] theorem State.setPending_initDone (s : State) (b : Bit) : (s.setPending b).initDone = s.initDone := rfl
@[simp] theorem State.setPending_pending (s : State) (b : Bit) : (s.setPending b).pending = b := rfl
@[simp] theorem State.setPending_fault (s : State) (b : Bit) : (s.setPending b).fault = s.fault := rfl
@[simp] theorem State.setPending_mode (s : State) (b : Bit) : (s.setPending b).mode = s.mode := rfl
@[simp] theorem State.setPending_gbits (s : State) (b : Bit) : (s.setPending b).gbits = s.gbits := rfl
@[simp] theorem State.setPending_pbits (s : State) (b : Bit) : (s.setPending b).pbits = s.pbits := rfl
@[simp] theorem State.setPending_lbits (s : State) (b : Bit) : (s.setPending b).lbits = s.lbits := rfl
@[simp] theorem State.setPending_theta (s : State) (b : Bit) : (s.setPending b).theta = s.theta := rfl
@[simp] theorem State.setPending_ghr (s : State) (b : Bit) : (s.setPending b).ghr = s.ghr := rfl
@[simp] theorem State.setPending_gpht (s : State) (b : Bit) : (s.setPending b).gpht = s.gpht := rfl
@[simp] theorem State.setPending_tgpt (s : State) (b : Bit) : (s.setPending b).tgpt = s.tgpt := rfl
@[simp] theorem State.setPending_tlpt (s : State) (b : Bit) : (s.setPending b).tlpt = s.tlpt := rfl
@[simp] theorem State.setPending_tmeta (s : State) (b : Bit) : (s.setPending b).tmeta = s.tmeta := rfl
@[simp] theorem State.setPending_lht (s : State) (b : Bit) : (s.setPending b).lht = s.lht := rfl
@[simp] theorem State.setPending_pbias (s : State) (b : Bit) : (s.setPending b).pbias = s.pbias := rfl
@[simp] theorem State.setPending_pw (s : State) (b : Bit) : (s.setPending b).pw = s.pw := rfl
@[simp] theorem State.setPending_tokGidx (s : State) (b : Bit) : (s.setPending b).tokGidx = s.tokGidx := rfl
@[simp] theorem State.setPending_tokPidx (s : State) (b : Bit) : (s.setPending b).tokPidx = s.tokPidx := rfl
@[simp] theorem State.setPending_tokLidx (s : State) (b : Bit) : (s.setPending b).tokLidx = s.tokLidx := rfl
@[simp] theorem State.setPending_tokGpred (s : State) (b : Bit) : (s.setPending b).tokGpred = s.tokGpred := rfl
@[simp] theorem State.setPending_tokLpred (s : State) (b : Bit) : (s.setPending b).tokLpred = s.tokLpred := rfl
@[simp] theorem State.setPending_tokSum (s : State) (b : Bit) : (s.setPending b).tokSum = s.tokSum := rfl
@[simp] theorem State.setPending_thetaFn (s : State) (b : Bit) : (s.setPending b).thetaFn = s.thetaFn := rfl
@[simp] theorem State.setPending_inputs (s : State) (b : Bit) : (s.setPending b).inputs = s.inputs := rfl
@[simp] theorem State.setPending_resp (s : State) (b : Bit) : (s.setPending b).resp = s.resp := rfl

/-! ### `State.raise` -/

@[simp] theorem State.raise_initDone (s : State) (c : FaultCode) : (s.raise c).initDone = s.initDone := rfl
@[simp] theorem State.raise_pending (s : State) (c : FaultCode) : (s.raise c).pending = s.pending := rfl
@[simp] theorem State.raise_fault (s : State) (c : FaultCode) : (s.raise c).fault = faultBits c := rfl
@[simp] theorem State.raise_mode (s : State) (c : FaultCode) : (s.raise c).mode = s.mode := rfl
@[simp] theorem State.raise_gbits (s : State) (c : FaultCode) : (s.raise c).gbits = s.gbits := rfl
@[simp] theorem State.raise_pbits (s : State) (c : FaultCode) : (s.raise c).pbits = s.pbits := rfl
@[simp] theorem State.raise_lbits (s : State) (c : FaultCode) : (s.raise c).lbits = s.lbits := rfl
@[simp] theorem State.raise_theta (s : State) (c : FaultCode) : (s.raise c).theta = s.theta := rfl
@[simp] theorem State.raise_ghr (s : State) (c : FaultCode) : (s.raise c).ghr = s.ghr := rfl
@[simp] theorem State.raise_gpht (s : State) (c : FaultCode) : (s.raise c).gpht = s.gpht := rfl
@[simp] theorem State.raise_tgpt (s : State) (c : FaultCode) : (s.raise c).tgpt = s.tgpt := rfl
@[simp] theorem State.raise_tlpt (s : State) (c : FaultCode) : (s.raise c).tlpt = s.tlpt := rfl
@[simp] theorem State.raise_tmeta (s : State) (c : FaultCode) : (s.raise c).tmeta = s.tmeta := rfl
@[simp] theorem State.raise_lht (s : State) (c : FaultCode) : (s.raise c).lht = s.lht := rfl
@[simp] theorem State.raise_pbias (s : State) (c : FaultCode) : (s.raise c).pbias = s.pbias := rfl
@[simp] theorem State.raise_pw (s : State) (c : FaultCode) : (s.raise c).pw = s.pw := rfl
@[simp] theorem State.raise_tokGidx (s : State) (c : FaultCode) : (s.raise c).tokGidx = s.tokGidx := rfl
@[simp] theorem State.raise_tokPidx (s : State) (c : FaultCode) : (s.raise c).tokPidx = s.tokPidx := rfl
@[simp] theorem State.raise_tokLidx (s : State) (c : FaultCode) : (s.raise c).tokLidx = s.tokLidx := rfl
@[simp] theorem State.raise_tokGpred (s : State) (c : FaultCode) : (s.raise c).tokGpred = s.tokGpred := rfl
@[simp] theorem State.raise_tokLpred (s : State) (c : FaultCode) : (s.raise c).tokLpred = s.tokLpred := rfl
@[simp] theorem State.raise_tokSum (s : State) (c : FaultCode) : (s.raise c).tokSum = s.tokSum := rfl
@[simp] theorem State.raise_thetaFn (s : State) (c : FaultCode) : (s.raise c).thetaFn = s.thetaFn := rfl
@[simp] theorem State.raise_inputs (s : State) (c : FaultCode) : (s.raise c).inputs = s.inputs := rfl
@[simp] theorem State.raise_resp (s : State) (c : FaultCode) : (s.raise c).resp = s.resp := rfl

/-! ### `State.withInputs` -/

@[simp] theorem State.withInputs_initDone (s : State) (r : List Input) : (s.withInputs r).initDone = s.initDone := rfl
@[simp] theorem State.withInputs_pending (s : State) (r : List Input) : (s.withInputs r).pending = s.pending := rfl
@[simp] theorem State.withInputs_fault (s : State) (r : List Input) : (s.withInputs r).fault = s.fault := rfl
@[simp] theorem State.withInputs_mode (s : State) (r : List Input) : (s.withInputs r).mode = s.mode := rfl
@[simp] theorem State.withInputs_gbits (s : State) (r : List Input) : (s.withInputs r).gbits = s.gbits := rfl
@[simp] theorem State.withInputs_pbits (s : State) (r : List Input) : (s.withInputs r).pbits = s.pbits := rfl
@[simp] theorem State.withInputs_lbits (s : State) (r : List Input) : (s.withInputs r).lbits = s.lbits := rfl
@[simp] theorem State.withInputs_theta (s : State) (r : List Input) : (s.withInputs r).theta = s.theta := rfl
@[simp] theorem State.withInputs_ghr (s : State) (r : List Input) : (s.withInputs r).ghr = s.ghr := rfl
@[simp] theorem State.withInputs_gpht (s : State) (r : List Input) : (s.withInputs r).gpht = s.gpht := rfl
@[simp] theorem State.withInputs_tgpt (s : State) (r : List Input) : (s.withInputs r).tgpt = s.tgpt := rfl
@[simp] theorem State.withInputs_tlpt (s : State) (r : List Input) : (s.withInputs r).tlpt = s.tlpt := rfl
@[simp] theorem State.withInputs_tmeta (s : State) (r : List Input) : (s.withInputs r).tmeta = s.tmeta := rfl
@[simp] theorem State.withInputs_lht (s : State) (r : List Input) : (s.withInputs r).lht = s.lht := rfl
@[simp] theorem State.withInputs_pbias (s : State) (r : List Input) : (s.withInputs r).pbias = s.pbias := rfl
@[simp] theorem State.withInputs_pw (s : State) (r : List Input) : (s.withInputs r).pw = s.pw := rfl
@[simp] theorem State.withInputs_tokGidx (s : State) (r : List Input) : (s.withInputs r).tokGidx = s.tokGidx := rfl
@[simp] theorem State.withInputs_tokPidx (s : State) (r : List Input) : (s.withInputs r).tokPidx = s.tokPidx := rfl
@[simp] theorem State.withInputs_tokLidx (s : State) (r : List Input) : (s.withInputs r).tokLidx = s.tokLidx := rfl
@[simp] theorem State.withInputs_tokGpred (s : State) (r : List Input) : (s.withInputs r).tokGpred = s.tokGpred := rfl
@[simp] theorem State.withInputs_tokLpred (s : State) (r : List Input) : (s.withInputs r).tokLpred = s.tokLpred := rfl
@[simp] theorem State.withInputs_tokSum (s : State) (r : List Input) : (s.withInputs r).tokSum = s.tokSum := rfl
@[simp] theorem State.withInputs_thetaFn (s : State) (r : List Input) : (s.withInputs r).thetaFn = s.thetaFn := rfl
@[simp] theorem State.withInputs_inputs (s : State) (r : List Input) : (s.withInputs r).inputs = r := rfl
@[simp] theorem State.withInputs_resp (s : State) (r : List Input) : (s.withInputs r).resp = s.resp := rfl

/-! ### `State.takeReset` -/

@[simp] theorem State.takeReset_initDone (s : State) (r : List Input) : (s.takeReset r).initDone = false := rfl
@[simp] theorem State.takeReset_pending (s : State) (r : List Input) : (s.takeReset r).pending = false := rfl
@[simp] theorem State.takeReset_fault (s : State) (r : List Input) : (s.takeReset r).fault = 0#3 := rfl
@[simp] theorem State.takeReset_mode (s : State) (r : List Input) : (s.takeReset r).mode = none := rfl
@[simp] theorem State.takeReset_gbits (s : State) (r : List Input) : (s.takeReset r).gbits = none := rfl
@[simp] theorem State.takeReset_pbits (s : State) (r : List Input) : (s.takeReset r).pbits = none := rfl
@[simp] theorem State.takeReset_lbits (s : State) (r : List Input) : (s.takeReset r).lbits = none := rfl
@[simp] theorem State.takeReset_theta (s : State) (r : List Input) : (s.takeReset r).theta = none := rfl
@[simp] theorem State.takeReset_ghr (s : State) (r : List Input) : (s.takeReset r).ghr = none := rfl
@[simp] theorem State.takeReset_gpht (s : State) (r : List Input) : (s.takeReset r).gpht = none := rfl
@[simp] theorem State.takeReset_tgpt (s : State) (r : List Input) : (s.takeReset r).tgpt = none := rfl
@[simp] theorem State.takeReset_tlpt (s : State) (r : List Input) : (s.takeReset r).tlpt = none := rfl
@[simp] theorem State.takeReset_tmeta (s : State) (r : List Input) : (s.takeReset r).tmeta = none := rfl
@[simp] theorem State.takeReset_lht (s : State) (r : List Input) : (s.takeReset r).lht = none := rfl
@[simp] theorem State.takeReset_pbias (s : State) (r : List Input) : (s.takeReset r).pbias = none := rfl
@[simp] theorem State.takeReset_pw (s : State) (r : List Input) : (s.takeReset r).pw = none := rfl
@[simp] theorem State.takeReset_tokGidx (s : State) (r : List Input) : (s.takeReset r).tokGidx = none := rfl
@[simp] theorem State.takeReset_tokPidx (s : State) (r : List Input) : (s.takeReset r).tokPidx = none := rfl
@[simp] theorem State.takeReset_tokLidx (s : State) (r : List Input) : (s.takeReset r).tokLidx = none := rfl
@[simp] theorem State.takeReset_tokGpred (s : State) (r : List Input) : (s.takeReset r).tokGpred = none := rfl
@[simp] theorem State.takeReset_tokLpred (s : State) (r : List Input) : (s.takeReset r).tokLpred = none := rfl
@[simp] theorem State.takeReset_tokSum (s : State) (r : List Input) : (s.takeReset r).tokSum = none := rfl
@[simp] theorem State.takeReset_thetaFn (s : State) (r : List Input) : (s.takeReset r).thetaFn = s.thetaFn := rfl
@[simp] theorem State.takeReset_inputs (s : State) (r : List Input) : (s.takeReset r).inputs = r := rfl
@[simp] theorem State.takeReset_resp (s : State) (r : List Input) : (s.takeReset r).resp = [] := rfl

end Sys2Proof.Machine
end

