-- ==== Sys2Proof/Laws/Tables.lean ====
section
/-! SUPPORT. What a table read and a table write do (20_memory.md R52, R53), and that the canonical
form is kept and is canonical. -/

namespace Sys2Proof.Machine

variable {α : Type}

/-! ### Cells -/

@[simp] theorem cellGet_nil (k : Nat) : cellGet k ([] : List (Nat × α)) = none := rfl

theorem cellGet_insert (k : Nat) (v : α) (cs : List (Nat × α)) (j : Nat) :
    cellGet j (cellInsert k v cs) = if j = k then some v else cellGet j cs := by
  by_cases hj : j = k
  · subst hj
    induction cs with
    | nil => simp [cellInsert, cellGet]
    | cons c cs ih =>
      simp only [cellInsert]
      split
      · simp [cellGet]
      · split
        · simp [cellGet]
        · next hne => simpa [cellGet, Ne.symm hne] using ih
  · induction cs with
    | nil => simp [cellInsert, cellGet, hj, Ne.symm hj]
    | cons c cs ih =>
      simp only [cellInsert]
      split
      · simp [cellGet, Ne.symm hj]
      · split
        · next heq => simp [cellGet, ← heq, Ne.symm hj]
        · simpa [cellGet, hj] using by rw [ih, if_neg hj]

theorem cellGet_erase (k : Nat) (cs : List (Nat × α)) (j : Nat) :
    cellGet j (cellErase k cs) = if j = k then none else cellGet j cs := by
  induction cs with
  | nil => simp [cellErase]
  | cons c cs ih =>
    simp only [cellErase]
    split
    · next hc =>
      rw [ih]
      by_cases hj : j = k
      · simp [hj]
      · simp [hj, cellGet, hc, Ne.symm hj]
    · next hc =>
      by_cases hj : j = k
      · subst hj; simpa [cellGet, hc] using ih
      · simp only [cellGet, ih, if_neg hj]

theorem mem_cellInsert {k : Nat} {v : α} {cs : List (Nat × α)} {c : Nat × α}
    (h : c ∈ cellInsert k v cs) : c = (k, v) ∨ c ∈ cs := by
  induction cs with
  | nil => simpa [cellInsert] using h
  | cons d cs ih =>
    simp only [cellInsert] at h
    split at h
    · simpa using h
    · split at h
      · rcases List.mem_cons.1 h with h | h
        · exact .inl h
        · exact .inr (List.mem_cons_of_mem _ h)
      · rcases List.mem_cons.1 h with h | h
        · exact .inr (h ▸ List.mem_cons_self ..)
        · exact (ih h).imp_right (List.mem_cons_of_mem _)

theorem mem_cellErase {k : Nat} {cs : List (Nat × α)} {c : Nat × α}
    (h : c ∈ cellErase k cs) : c ∈ cs := by
  induction cs with
  | nil => simp [cellErase] at h
  | cons d cs ih =>
    simp only [cellErase] at h
    split at h
    · exact List.mem_cons_of_mem _ (ih h)
    · rcases List.mem_cons.1 h with h | h
      · exact h ▸ List.mem_cons_self ..
      · exact List.mem_cons_of_mem _ (ih h)

/-- Keys strictly rising. -/
abbrev CellsRising (cs : List (Nat × α)) : Prop := cs.Pairwise fun a b => a.1 < b.1

theorem cellInsert_rising {k : Nat} {v : α} {cs : List (Nat × α)} (h : CellsRising cs) :
    CellsRising (cellInsert k v cs) := by
  induction cs with
  | nil => simp [cellInsert, CellsRising]
  | cons c cs ih =>
    obtain ⟨hc, hcs⟩ := List.pairwise_cons.1 h
    simp only [cellInsert]
    split
    · next hlt =>
      refine List.pairwise_cons.2 ⟨fun d hd => ?_, h⟩
      rcases List.mem_cons.1 hd with rfl | hd
      · exact hlt
      · exact hlt.trans (hc d hd)
    · split
      · next heq => exact List.pairwise_cons.2 ⟨fun d hd => heq ▸ hc d hd, hcs⟩
      · next hlt hne =>
        refine List.pairwise_cons.2 ⟨fun d hd => ?_, ih hcs⟩
        rcases mem_cellInsert hd with rfl | hd
        · show c.1 < k
          omega
        · exact hc d hd

theorem cellErase_rising {k : Nat} {cs : List (Nat × α)} (h : CellsRising cs) :
    CellsRising (cellErase k cs) := by
  induction cs with
  | nil => simp [cellErase, CellsRising]
  | cons c cs ih =>
    obtain ⟨hc, hcs⟩ := List.pairwise_cons.1 h
    simp only [cellErase]
    split
    · exact ih hcs
    · exact List.pairwise_cons.2 ⟨fun d hd => hc d (mem_cellErase hd), ih hcs⟩

theorem cellGet_mem {k : Nat} {v : α} {cs : List (Nat × α)} (h : cellGet k cs = some v) :
    (k, v) ∈ cs := by
  induction cs with
  | nil => simp at h
  | cons c cs ih =>
    simp only [cellGet] at h
    split at h
    · next hk => cases h; subst hk; exact List.mem_cons_self ..
    · exact List.mem_cons_of_mem _ (ih h)

theorem cellGet_of_mem {cs : List (Nat × α)} (h : CellsRising cs) {c : Nat × α} (hc : c ∈ cs) :
    cellGet c.1 cs = some c.2 := by
  induction cs with
  | nil => simp at hc
  | cons d cs ih =>
    obtain ⟨hd, hcs⟩ := List.pairwise_cons.1 h
    rcases List.mem_cons.1 hc with rfl | hc
    · simp [cellGet]
    · have := hd c hc
      rw [cellGet, if_neg (by omega)]
      exact ih hcs hc

/-- Rising cells with the same listed values are the same list. -/
theorem cells_eq_of_get_eq {cs ds : List (Nat × α)} (hc : CellsRising cs) (hd : CellsRising ds)
    (h : ∀ k, cellGet k cs = cellGet k ds) : cs = ds := by
  refine (List.Perm.eq_of_pairwise (le := fun a b : Nat × α => a.1 < b.1)
    (fun a b _ _ h₁ h₂ => absurd h₁ (by omega)) hc hd ?_)
  have nd {es : List (Nat × α)} (he : CellsRising es) : es.Nodup :=
    he.imp fun {a b} hab hEq => by subst hEq; exact Nat.lt_irrefl _ hab
  refine (List.perm_ext_iff_of_nodup (nd hc) (nd hd)).2 fun e => ⟨fun he => ?_, fun he => ?_⟩
  · exact cellGet_mem (h e.1 ▸ cellGet_of_mem hc he)
  · exact cellGet_mem ((h e.1).symm ▸ cellGet_of_mem hd he)

/-! ### Tables -/

@[simp] theorem Table.filled_bits (n : Nat) (v : α) : (Table.filled n v).bits = n := rfl

@[simp] theorem Table.filled_read (n : Nat) (v : α) (j : Nat) :
    (Table.filled n v).read j = if j < 2 ^ n then some v else none := rfl

theorem Table.filled_wf (n : Nat) (v : α) : (Table.filled n v).wf := by
  simp [Table.filled, Table.wf]

theorem Table.read_isSome {t : Table α} {i : Nat} (h : i < 2 ^ t.bits) : ∃ v, t.read i = some v :=
  ⟨_, if_pos h⟩

theorem Table.read_lt {t : Table α} {i : Nat} {v : α} (h : t.read i = some v) : i < 2 ^ t.bits := by
  by_contra hn
  simp [Table.read, hn] at h

/-- What a read gives: the fill, or a listed value. -/
theorem Table.read_cases {t : Table α} {i : Nat} {v : α} (h : t.read i = some v) :
    v = t.fill ∨ (i, v) ∈ t.cells := by
  simp only [Table.read] at h
  split at h
  · cases hg : cellGet i t.cells with
    | none => left; simpa [hg] using h.symm
    | some w => right; simp [hg] at h; subst h; exact cellGet_mem hg
  · cases h

/-- The one lemma of `Table.write`: it answers exactly in range, with a table of the same size that
reads `v` at `i` and reads as before elsewhere. -/
theorem Table.write_spec [DecidableEq α] (t : Table α) (i : Nat) (v : α) (h : i < 2 ^ t.bits) :
    ∃ t', t.write i v = some t' ∧ t'.bits = t.bits ∧ t'.fill = t.fill ∧
      (∀ j, t'.read j = if j = i then some v else t.read j) ∧ (t.wf → t'.wf) ∧
      ∀ c ∈ t'.cells, c ∈ t.cells ∨ c = (i, v) := by
  refine ⟨_, if_pos h, rfl, rfl, fun j => ?_, fun hw => ?_, fun c hc => ?_⟩
  · by_cases hv : v = t.fill
    · by_cases hj : j = i
      · subst hj; simp [Table.read, h, hv, cellGet_erase]
      · simp [Table.read, hv, cellGet_erase, hj]
    · by_cases hj : j = i
      · subst hj; simp [Table.read, h, hv, cellGet_insert]
      · simp [Table.read, hv, cellGet_insert, hj]
  · by_cases hv : v = t.fill
    · simp only [hv, if_true]
      exact ⟨cellErase_rising hw.1, fun c hc => hw.2 c (mem_cellErase hc)⟩
    · simp only [hv, if_false]
      refine ⟨cellInsert_rising hw.1, fun c hc => ?_⟩
      rcases mem_cellInsert hc with rfl | hc
      · exact ⟨h, hv⟩
      · exact hw.2 c hc
  · by_cases hv : v = t.fill
    · simp only [hv, if_true] at hc
      exact .inl (mem_cellErase hc)
    · simp only [hv, if_false] at hc
      exact (mem_cellInsert hc).symm

theorem Table.write_lt [DecidableEq α] {t t' : Table α} {i : Nat} {v : α}
    (h : t.write i v = some t') : i < 2 ^ t.bits := by
  by_contra hn
  simp [Table.write, hn] at h

/-- Memory operations keep the canonical form. -/
theorem Table.write_wf [DecidableEq α] {t t' : Table α} {i : Nat} {v : α} (hw : t.wf)
    (h : t.write i v = some t') : t'.wf := by
  obtain ⟨u, hu, -, -, -, hwf, -⟩ := t.write_spec i v (Table.write_lt h)
  rw [hu] at h
  cases h
  exact hwf hw

end Sys2Proof.Machine
end

