-- ==== Sys2Proof/Laws/Ops.lean ====
section
/-! SUPPORT. What each shared operation can do, said once: the reads and writes of a table element,
the counter operations, a command after its checks, and the invariant's tables under them. -/

namespace Sys2Proof.Machine

variable {α β : Type}

/-! ### The end of a meaning -/

@[simp] theorem ok_bind (a : α) (f : α → Except Fault β) :
    ((Except.ok a : Except Fault α) >>= f) = f a := rfl

@[simp] theorem error_bind (e : Fault) (f : α → Except Fault β) :
    ((Except.error e : Except Fault α) >>= f) = .error e := rfl

@[simp] theorem pure_eq_ok (a : α) : (pure a : Except Fault α) = .ok a := rfl

theorem bind_eq_ok {x : Except Fault α} {f : α → Except Fault β} {b : β} :
    (x >>= f) = .ok b ↔ ∃ a, x = .ok a ∧ f a = .ok b := by
  cases x <;> simp

@[simp] theorem finish_ok (s : State) : finish (.ok s) = .next s := rfl

theorem finish_eq_next {r : Except Fault State} {t : State} :
    finish r = .next t ↔ r = .ok t := by
  cases r <;> simp [finish]

@[simp] theorem guarded_some (c : FaultCode) (s : State) (r : Except Fault State) :
    guarded (some c) s r = .next (s.raise c) := rfl

@[simp] theorem guarded_none (s : State) (r : Except Fault State) :
    guarded none s r = finish r := rfl

/-- A command raises the fault of its first failing check, or performs itself. -/
theorem guarded_eq_next {c : Option FaultCode} {s t : State} {r : Except Fault State} :
    guarded c s r = .next t ↔ (∃ k, c = some k ∧ t = s.raise k) ∨ (c = none ∧ r = .ok t) := by
  cases c with
  | none => simp [finish_eq_next]
  | some k => simp [eq_comm]

theorem faultBits_ne_none (c : FaultCode) : faultBits c ≠ faultNone := by
  cases c <;> decide

theorem faultBits_range (c : FaultCode) : 1 ≤ (faultBits c).toNat ∧ (faultBits c).toNat ≤ 6 := by
  cases c <;> decide

theorem faulted_iff (s : State) : s.faulted = true ↔ s.fault ≠ 0#3 := by
  rw [State.faulted, decide_eq_true_eq]
  rfl

/-! ### Reading -/

@[simp] theorem need_some (e : Element) (a : α) : need e (some a) = .ok a := rfl

theorem need_eq_ok {e : Element} {o : Option α} {a : α} : need e o = .ok a ↔ o = some a := by
  cases o <;> simp [need]

theorem entryAt_eq_some {t : Option (Table α)} {j : Nat} {v : α} :
    entryAt t j = some v ↔ ∃ u, t = some u ∧ u.read j = some v := by
  cases t <;> simp [entryAt]

/-- A table read answers exactly the entry. -/
theorem tableRead_eq_ok {e : Element} {t : Option (Table α)} {i : U32} {v : α} :
    tableRead e t i = .ok v ↔ entryAt t i.toNat = some v := by
  cases t with
  | none => simp [tableRead, need, entryAt]
  | some u => cases h : u.read i.toNat <;> simp [tableRead, entryAt, inRange, h]

theorem sctPredict_eq_ok {e : Element} {t : Option (Table Counter)} {i : U32} {b : Bit} :
    sctPredict e t i = .ok b ↔ ∃ c, entryAt t i.toNat = some c ∧ ctrPred c = b := by
  simp only [sctPredict, bind_eq_ok, tableRead_eq_ok, pure_eq_ok, Except.ok.injEq]

theorem fullRow_eq_ok {g : Nat} {row ws : List Weight} :
    fullRow g row = .ok ws ↔ row.length = g ∧ ws = row := by
  by_cases h : row.length = g <;> simp [fullRow, h, eq_comm]

/-! ### Writing -/

/-- A table write in range answers, writes that entry and no other, and keeps the size, the fill and
the canonical form. -/
theorem tableWrite_spec [DecidableEq α] {e : Element} {u : Table α} {i : U32} (v : α)
    (h : i.toNat < 2 ^ u.bits) :
    ∃ t', tableWrite e (some u) i v = .ok t' ∧ t'.bits = u.bits ∧ t'.fill = u.fill ∧
      (∀ j, t'.read j = if j = i.toNat then some v else u.read j) ∧ (u.wf → t'.wf) ∧
      ∀ c ∈ t'.cells, c ∈ u.cells ∨ c = (i.toNat, v) := by
  obtain ⟨t', ht, rest⟩ := u.write_spec i.toNat v h
  exact ⟨t', by simp [tableWrite, inRange, ht], rest⟩

theorem tableWrite_eq_ok [DecidableEq α] {e : Element} {t : Option (Table α)} {i : U32} {v : α}
    {t' : Table α} (h : tableWrite e t i v = .ok t') :
    ∃ u, t = some u ∧ u.write i.toNat v = some t' := by
  cases t with
  | none => simp [tableWrite, need] at h
  | some u =>
    cases hw : u.write i.toNat v with
    | none => simp [tableWrite, inRange, hw] at h
    | some x => simp [tableWrite, inRange, hw] at h; exact ⟨u, rfl, h ▸ hw⟩

/-- A counter's training in range answers, and steps that entry and no other. -/
theorem sctTrain_spec {e : Element} {u : Table Counter} {i : U32} {c : Counter} (d : Bit)
    (h : u.read i.toNat = some c) :
    ∃ t', sctTrain e (some u) i d = .ok t' ∧ t'.bits = u.bits ∧ t'.fill = u.fill ∧
      (∀ j, t'.read j = if j = i.toNat then some (satUpdate c d) else u.read j) ∧
      (u.wf → t'.wf) := by
  obtain ⟨t', ht, hb, hf, hr, hw, -⟩ :=
    tableWrite_spec (e := e) (satUpdate c d) (Table.read_lt h)
  have hread : tableRead e (some u) i = .ok c :=
    tableRead_eq_ok.2 (entryAt_eq_some.2 ⟨u, rfl, h⟩)
  exact ⟨t', by rw [sctTrain, hread, ok_bind, ht], hb, hf, hr, hw⟩

theorem sctTrain_eq_ok {e : Element} {t : Option (Table Counter)} {i : U32} {d : Bit}
    {t' : Table Counter} (h : sctTrain e t i d = .ok t') :
    ∃ u c, t = some u ∧ u.read i.toNat = some c ∧ u.write i.toNat (satUpdate c d) = some t' := by
  obtain ⟨c, hc, hw⟩ := bind_eq_ok.1 h
  obtain ⟨u, rfl, hu⟩ := tableWrite_eq_ok hw
  obtain ⟨u', hu', hr⟩ := entryAt_eq_some.1 (tableRead_eq_ok.1 hc)
  cases hu'
  exact ⟨u, c, rfl, hr, hu⟩

/-- A write over an entry that reads, stated on the element. -/
theorem tableWrite_entry [DecidableEq α] (e : Element) {t : Option (Table α)} {i : U32} {a : α}
    (v : α) (h : entryAt t i.toNat = some a) :
    ∃ t', tableWrite e t i v = .ok t' ∧
      ∀ j, t'.read j = if j = i.toNat then some v else entryAt t j := by
  obtain ⟨u, rfl, hu⟩ := entryAt_eq_some.1 h
  obtain ⟨t', ht, -, -, hr, -⟩ := tableWrite_spec (e := e) v (Table.read_lt hu)
  exact ⟨t', ht, hr⟩

/-- A counter's training, stated on the element. -/
theorem sctTrain_entry (e : Element) {t : Option (Table Counter)} {i : U32} {c : Counter} (d : Bit)
    (h : entryAt t i.toNat = some c) :
    ∃ t', sctTrain e t i d = .ok t' ∧
      ∀ j, t'.read j = if j = i.toNat then some (satUpdate c d) else entryAt t j := by
  obtain ⟨u, rfl, hu⟩ := entryAt_eq_some.1 h
  obtain ⟨t', ht, -, -, hr, -⟩ := sctTrain_spec (e := e) d hu
  exact ⟨t', ht, hr⟩

/-- The canonical form is in the reset state, which lists nothing. -/
theorem Memory.wf_reset : Memory.wf State.reset := by
  simp [Memory.wf, State.reset]

/-! ### The invariant's tables -/

theorem Holds_iff {o : Option α} {ok : α → Bool} : Holds o ok ↔ ∃ a, o = some a ∧ ok a = true := by
  cases o <;> simp [Holds]

theorem HistoryIn_iff {g : Nat} {s : State} :
    HistoryIn g s ↔ ∃ h, s.ghr = some h ∧ h.toNat < 2 ^ g := by
  simp only [HistoryIn, Holds_iff, decide_eq_true_eq, le_mask_iff]

theorem IndexIn_iff {n : Nat} {o : Option U32} :
    IndexIn n o ↔ ∃ i, o = some i ∧ i.toNat < 2 ^ n := by
  simp only [IndexIn, Holds_iff, decide_eq_true_eq]

theorem Running_iff {s : State} :
    Running s ↔ ∃ m g p l, s.mode = some m ∧ s.gbits = some g ∧ s.pbits = some p ∧
      s.lbits = some l ∧ legalWidth g = true ∧ legalWidth p = true ∧ legalWidth l = true ∧
      ModeState (modeOf m) g.toNat p.toNat l.toNat s := by
  simp only [Running, Holds_iff, decide_eq_true_eq, Bool.and_eq_true]
  constructor
  · rintro ⟨m, hm, g, hg, p, hp, l, hl, ⟨⟨a, b⟩, c⟩, d⟩
    exact ⟨m, g, p, l, hm, hg, hp, hl, a, b, c, d⟩
  · rintro ⟨m, g, p, l, hm, hg, hp, hl, a, b, c, d⟩
    exact ⟨m, hm, g, hg, p, hp, l, hl, ⟨⟨a, b⟩, c⟩, d⟩

theorem Table.filled_shaped (n : Nat) (v : α) (ok : α → Prop) :
    (Table.filled n v).Shaped n v ok := ⟨rfl, rfl, Table.filled_wf n v, by simp [Table.filled]⟩

/-- Every entry of a shaped table is there, and is in its range. -/
theorem Table.Shaped.read {t : Table α} {n : Nat} {fill : α} {ok : α → Prop}
    (h : t.Shaped n fill ok) (hf : ok fill) {i : Nat} (hi : i < 2 ^ n) :
    ∃ v, t.read i = some v ∧ ok v := by
  obtain ⟨hb, hfill, -, hc⟩ := h
  obtain ⟨v, hv⟩ := Table.read_isSome (t := t) (hb ▸ hi)
  refine ⟨v, hv, ?_⟩
  rcases Table.read_cases hv with rfl | hm
  · exact hfill ▸ hf
  · exact hc _ hm

/-- Every entry of a shaped element is there, and is in its range. -/
theorem entryAt_shaped {o : Option (Table α)} {n : Nat} {fill : α} {ok : α → Prop}
    (h : ∃ t ∈ o, t.Shaped n fill ok) (hf : ok fill) {i : Nat} (hi : i < 2 ^ n) :
    ∃ v, entryAt o i = some v ∧ ok v := by
  obtain ⟨t, ht, hs⟩ := h
  obtain ⟨v, hv, hok⟩ := hs.read hf hi
  exact ⟨v, entryAt_eq_some.2 ⟨t, ht, hv⟩, hok⟩

/-- A write keeps a shaped table shaped. -/
theorem Table.Shaped.write [DecidableEq α] {t t' : Table α} {n : Nat} {fill : α} {ok : α → Prop}
    (h : t.Shaped n fill ok) {i : Nat} {v : α} (hv : ok v) (hw : t.write i v = some t') :
    t'.Shaped n fill ok := by
  obtain ⟨hb, hfill, hwf, hc⟩ := h
  obtain ⟨u, hu, hub, huf, -, huw, huc⟩ := t.write_spec i v (Table.write_lt hw)
  rw [hu] at hw
  cases hw
  refine ⟨hub.trans hb, huf.trans hfill, huw hwf, fun c hcm => ?_⟩
  rcases huc c hcm with hcm | rfl
  · exact hc c hcm
  · exact hv

/-- A table in its shape takes a write at any index in range. -/
theorem Table.Shaped.write_isSome [DecidableEq α] {t : Table α} {n : Nat} {fill : α}
    {ok : α → Prop} (h : t.Shaped n fill ok) {i : Nat} (hi : i < 2 ^ n) (v : α) :
    ∃ t', t.write i v = some t' := by
  obtain ⟨t', ht, -⟩ := t.write_spec i v (by rw [h.1]; exact hi)
  exact ⟨t', ht⟩

theorem sctTrain_shaped {e : Element} {t : Option (Table Counter)} {i : U32} {d : Bit}
    {t' : Table Counter} {n : Nat} (ht : ∃ u ∈ t, CounterTable n u)
    (h : sctTrain e t i d = .ok t') : CounterTable n t' := by
  obtain ⟨u, c, rfl, -, hw⟩ := sctTrain_eq_ok h
  obtain ⟨u', hu, hs⟩ := ht
  cases hu
  exact hs.write trivial hw

theorem sctTrain_completes (e : Element) {t : Option (Table Counter)} {i : U32} (d : Bit) {n : Nat}
    (ht : ∃ u ∈ t, CounterTable n u) (hi : i.toNat < 2 ^ n) :
    ∃ t', sctTrain e t i d = .ok t' := by
  obtain ⟨u, hu, hs⟩ := ht
  cases hu
  obtain ⟨c, hc, -⟩ := hs.read trivial hi
  obtain ⟨t', ht', -⟩ := sctTrain_spec (e := e) d hc
  exact ⟨t', ht'⟩

theorem sctPredict_completes (e : Element) {t : Option (Table Counter)} {i : U32} {n : Nat}
    (ht : ∃ u ∈ t, CounterTable n u) (hi : i.toNat < 2 ^ n) :
    ∃ b, sctPredict e t i = .ok b := by
  obtain ⟨u, hu, hs⟩ := ht
  obtain ⟨c, hc, -⟩ := hs.read trivial hi
  exact ⟨_, sctPredict_eq_ok.2 ⟨c, entryAt_eq_some.2 ⟨u, hu, hc⟩, rfl⟩⟩

end Sys2Proof.Machine
end

