-- ==== Sys2Proof/Laws/Exec.lean ====
section
/-! SUPPORT. What each model rule, each command and each step can do, said once: exactly when it
answers a next state, and which. A proof about a command cites these and does not unfold it. -/

namespace Sys2Proof.Machine

/-! ### The checks -/

theorem checkInit_none {g p l : U6} {s : State} :
    checkInit g p l s = none ↔ s.initDone = false ∧
      legalWidth g = true ∧ legalWidth p = true ∧ legalWidth l = true := by
  cases hd : s.initDone <;> cases hg : legalWidth g <;> cases hp : legalWidth p <;>
    cases hl : legalWidth l <;> simp [checkInit, hd, hg, hp, hl]

theorem checkPredict_none {s : State} :
    checkPredict s = none ↔ s.initDone = true ∧ s.pending = false := by
  cases hd : s.initDone <;> cases hp : s.pending <;> simp [checkPredict, hd, hp]

theorem checkTrain_none {s : State} :
    checkTrain s = none ↔ s.initDone = true ∧ s.pending = true := by
  cases hd : s.initDone <;> cases hp : s.pending <;> simp [checkTrain, hd, hp]

/-! ### Modes -/

theorem modeOf_gshare {m : U32} : modeOf m = .gshare ↔ m = modeValue .GSHARE := by
  unfold modeOf modeValue; split_ifs <;> simp_all

theorem modeOf_static {m : U32} : modeOf m = .static ↔ m = modeValue .STATIC := by
  unfold modeOf modeValue; split_ifs <;> simp_all

theorem modeOf_tournament {m : U32} : modeOf m = .tournament ↔ m = modeValue .TOURNAMENT := by
  unfold modeOf modeValue; split_ifs <;> simp_all

theorem modeOf_custom {m : U32} : modeOf m = .custom ↔ m = modeValue .CUSTOM := by
  unfold modeOf modeValue; split_ifs <;> simp_all

theorem modeOf_unrecognized {m : U32} : modeOf m = .unrecognized ↔ 4 ≤ m.toNat := by
  unfold modeOf modeValue
  split_ifs with h0 h1 h2 h3
  all_goals first
    | (subst_vars; decide)
    | (simp only [true_iff]; bv_omega)

/-- A mode is unrecognized exactly when it has no name (R200). -/
theorem modeOf_unnamed {m : U32} : modeOf m = .unrecognized ↔ ∀ n, m ≠ modeValue n := by
  constructor
  · intro h n hm
    subst hm
    cases n <;> cases h
  · intro h
    simp [modeOf, h]

/-! ### The models' PREDICT -/

/-- GSHARE.PREDICT writes the token and the response only (R120). -/
theorem gsharePredict_eq_ok {pc : U32} {s t : State} :
    gsharePredict pc s = .ok t ↔ ∃ g h c, s.gbits = some g ∧ s.ghr = some h ∧
      entryAt s.gpht (idx h g.toNat ^^^ idx pc g.toNat).toNat = some c ∧
      t = { s with tokGidx := some (idx h g.toNat ^^^ idx pc g.toNat) }.respond (ctrPred c) := by
  simp only [gsharePredict, bind_eq_ok, need_eq_ok, sctPredict_eq_ok, pure_eq_ok, Except.ok.injEq]
  constructor
  · rintro ⟨g, hg, h, hh, b, ⟨c, hc, rfl⟩, rfl⟩
    exact ⟨g, h, c, hg, hh, hc, rfl⟩
  · rintro ⟨g, h, c, hg, hh, hc, rfl⟩
    exact ⟨g, hg, h, hh, _, ⟨c, hc, rfl⟩, rfl⟩

/-- TOURNAMENT.PREDICT writes the token and the response only (R140). -/
theorem tournamentPredict_eq_ok {pc : U32} {s t : State} :
    tournamentPredict pc s = .ok t ↔ ∃ g p l h cm lh cl cg,
      s.gbits = some g ∧ s.pbits = some p ∧ s.lbits = some l ∧ s.ghr = some h ∧
      entryAt s.tmeta (idx h g.toNat).toNat = some cm ∧
      entryAt s.lht (idx pc p.toNat).toNat = some lh ∧
      entryAt s.tlpt (idx lh l.toNat).toNat = some cl ∧
      entryAt s.tgpt (idx h g.toNat).toNat = some cg ∧
      t = { s with
        tokGidx := some (idx h g.toNat), tokPidx := some (idx pc p.toNat),
        tokLidx := some (idx lh l.toNat), tokGpred := some (ctrPred cg),
        tokLpred := some (ctrPred cl) }.respond
          (if ctrPred cm then ctrPred cl else ctrPred cg) := by
  simp only [tournamentPredict, bind_eq_ok, need_eq_ok, sctPredict_eq_ok, tableRead_eq_ok,
    pure_eq_ok, Except.ok.injEq]
  constructor
  · rintro ⟨g, hg, p, hp, l, hl, h, hh, _, ⟨cm, hcm, rfl⟩, lh, hlh, _, ⟨cl, hcl, rfl⟩, _,
      ⟨cg, hcg, rfl⟩, rfl⟩
    exact ⟨g, p, l, h, cm, lh, cl, cg, hg, hp, hl, hh, hcm, hlh, hcl, hcg, rfl⟩
  · rintro ⟨g, p, l, h, cm, lh, cl, cg, hg, hp, hl, hh, hcm, hlh, hcl, hcg, rfl⟩
    exact ⟨g, hg, p, hp, l, hl, h, hh, _, ⟨cm, hcm, rfl⟩, lh, hlh, _, ⟨cl, hcl, rfl⟩, _,
      ⟨cg, hcg, rfl⟩, rfl⟩

/-- CUSTOM.PREDICT writes the token and the response only (R170). -/
theorem customPredict_eq_ok {pc : U32} {s t : State} :
    customPredict pc s = .ok t ↔ ∃ g p h bias ws,
      s.gbits = some g ∧ s.pbits = some p ∧ s.ghr = some h ∧
      entryAt s.pbias (idx pc p.toNat).toNat = some bias ∧
      entryAt s.pw (idx pc p.toNat).toNat = some ws ∧ ws.length = g.toNat ∧
      t = { s with
        tokPidx := some (idx pc p.toNat),
        tokSum := some (BitVec.ofInt 32 (percSum bias ws h)) }.respond
          (decide (percSum bias ws h ≥ 0)) := by
  simp only [customPredict, bind_eq_ok, need_eq_ok, tableRead_eq_ok, fullRow_eq_ok, pure_eq_ok,
    Except.ok.injEq]
  constructor
  · rintro ⟨g, hg, p, hp, h, hh, bias, hb, row, hrow, ws, ⟨hlen, rfl⟩, rfl⟩
    exact ⟨g, p, h, bias, ws, hg, hp, hh, hb, hrow, hlen, rfl⟩
  · rintro ⟨g, p, h, bias, ws, hg, hp, hh, hb, hrow, hlen, rfl⟩
    exact ⟨g, hg, p, hp, h, hh, bias, hb, ws, hrow, ws, ⟨hlen, rfl⟩, rfl⟩

/-! ### The models' TRAIN -/

/-- GSHARE.TRAIN writes GPHT and GHR only (R121). -/
theorem gshareTrain_eq_ok {o : Bit} {s t : State} :
    gshareTrain o s = .ok t ↔ ∃ g h i u, s.gbits = some g ∧ s.ghr = some h ∧
      s.tokGidx = some i ∧ sctTrain .GPHT s.gpht i o = .ok u ∧
      t = { s with gpht := some u, ghr := some (histShift h o g.toNat) } := by
  simp only [gshareTrain, bind_eq_ok, need_eq_ok, pure_eq_ok, Except.ok.injEq]
  constructor
  · rintro ⟨g, hg, h, hh, i, hi, u, hu, rfl⟩
    exact ⟨g, h, i, u, hg, hh, hi, hu, rfl⟩
  · rintro ⟨g, h, i, u, hg, hh, hi, hu, rfl⟩
    exact ⟨g, hg, h, hh, i, hi, u, hu, rfl⟩

/-- TOURNAMENT.TRAIN writes TGPT, TLPT, TMETA, LHT and GHR only (R141). -/
theorem tournamentTrain_eq_ok {o : Bit} {s t : State} :
    tournamentTrain o s = .ok t ↔ ∃ g l h gi pi li gp lp tg tl tm lh lt,
      s.gbits = some g ∧ s.lbits = some l ∧ s.ghr = some h ∧ s.tokGidx = some gi ∧
      s.tokPidx = some pi ∧ s.tokLidx = some li ∧ s.tokGpred = some gp ∧ s.tokLpred = some lp ∧
      sctTrain .TGPT s.tgpt gi o = .ok tg ∧ sctTrain .TLPT s.tlpt li o = .ok tl ∧
      metaTrain s.tmeta gi lp gp o = .ok tm ∧ entryAt s.lht pi.toNat = some lh ∧
      tableWrite .LHT s.lht pi (histShift lh o l.toNat) = .ok lt ∧
      t = { s with
        tgpt := some tg, tlpt := some tl, tmeta := some tm, lht := some lt,
        ghr := some (histShift h o g.toNat) } := by
  simp only [tournamentTrain, bind_eq_ok, need_eq_ok, tableRead_eq_ok, pure_eq_ok,
    Except.ok.injEq]
  constructor
  · rintro ⟨g, hg, l, hl, h, hh, gi, hgi, pi, hpi, li, hli, gp, hgp, lp, hlp, tg, htg, tl, htl,
      tm, htm, lh, hlh, lt, hlt, rfl⟩
    exact ⟨g, l, h, gi, pi, li, gp, lp, tg, tl, tm, lh, lt, hg, hl, hh, hgi, hpi, hli, hgp, hlp,
      htg, htl, htm, hlh, hlt, rfl⟩
  · rintro ⟨g, l, h, gi, pi, li, gp, lp, tg, tl, tm, lh, lt, hg, hl, hh, hgi, hpi, hli, hgp, hlp,
      htg, htl, htm, hlh, hlt, rfl⟩
    exact ⟨g, hg, l, hl, h, hh, gi, hgi, pi, hpi, li, hli, gp, hgp, lp, hlp, tg, htg, tl, htl,
      tm, htm, lh, hlh, lt, hlt, rfl⟩

/-- The meta table does not move when the two predictions agree (R142). -/
theorem metaTrain_agree {u : Option (Table Counter)} {gi : U32} (b o : Bit) :
    metaTrain u gi b b o = need .TMETA u := by
  cases b <;> cases o <;> rfl

/-- When they differ it steps toward the one that was right (R143). -/
theorem metaTrain_differ {u : Option (Table Counter)} {gi : U32} {lp gp o : Bit} (h : lp ≠ gp) :
    metaTrain u gi lp gp o = sctTrain .TMETA u gi (lp == o) := by
  cases lp <;> cases gp <;> cases o <;> first | rfl | exact absurd rfl h

/-- The update behind the gate writes PBIAS and PW only (R180). -/
theorem customUpdate_eq_ok {b h : U32} {g : Nat} {o : Bit} {s t : State} :
    customUpdate b h g o s = .ok t ↔ ∃ bias tb ws tw,
      entryAt s.pbias b.toNat = some bias ∧
      tableWrite .PBIAS s.pbias b (wStep o bias) = .ok tb ∧
      entryAt s.pw b.toNat = some ws ∧ ws.length = g ∧
      tableWrite .PW s.pw b (trainLanes h o ws) = .ok tw ∧
      t = { s with pbias := some tb, pw := some tw } := by
  simp only [customUpdate, bind_eq_ok, tableRead_eq_ok, fullRow_eq_ok, pure_eq_ok,
    Except.ok.injEq]
  constructor
  · rintro ⟨bias, hb, tb, htb, row, hrow, ws, ⟨hlen, rfl⟩, tw, htw, rfl⟩
    exact ⟨bias, tb, ws, tw, hb, htb, hrow, hlen, htw, rfl⟩
  · rintro ⟨bias, tb, ws, tw, hb, htb, hrow, hlen, htw, rfl⟩
    exact ⟨bias, hb, tb, htb, ws, hrow, ws, ⟨hlen, rfl⟩, tw, htw, rfl⟩

/-- CUSTOM.TRAIN writes GHR, and behind an open gate PBIAS and PW (R180). -/
theorem customTrain_eq_ok {o : Bit} {s t : State} :
    customTrain o s = .ok t ↔ ∃ g h th b x,
      s.gbits = some g ∧ s.ghr = some h ∧ s.theta = some th ∧ s.tokPidx = some b ∧
      s.tokSum = some x ∧
      ((percGate x.toInt o th = false ∧
          t = { s with ghr := some (histShift h o g.toNat) }) ∨
        (percGate x.toInt o th = true ∧ ∃ u, customUpdate b h g.toNat o s = .ok u ∧
          t = { u with ghr := some (histShift h o g.toNat) })) := by
  simp only [customTrain, bind_eq_ok, need_eq_ok, pure_eq_ok, Except.ok.injEq]
  constructor
  · rintro ⟨g, hg, h, hh, th, hth, b, hb, x, hx, u, hu, rfl⟩
    refine ⟨g, h, th, b, x, hg, hh, hth, hb, hx, ?_⟩
    cases hgate : percGate x.toInt o th <;> rw [hgate] at hu
    · cases hu
      exact .inl ⟨rfl, rfl⟩
    · exact .inr ⟨rfl, u, hu, rfl⟩
  · rintro ⟨g, h, th, b, x, hg, hh, hth, hb, hx, ⟨hgate, rfl⟩ | ⟨hgate, u, hu, rfl⟩⟩
    · exact ⟨g, hg, h, hh, th, hth, b, hb, x, hx, s, by rw [hgate]; rfl, rfl⟩
    · exact ⟨g, hg, h, hh, th, hth, b, hb, x, hx, u, by rw [hgate]; exact hu, rfl⟩

/-! ### The commands -/

/-- INIT raises, or writes the mode's initial state (R201, R202). -/
theorem exec_init_eq_next {mode : U32} {g p l : U6} {s t : State} :
    exec (.init mode g p l) s = .next t ↔
      (∃ k, checkInit g p l s = some k ∧ t = s.raise k) ∨
      (checkInit g p l s = none ∧
        t = { initState mode g p l s with initDone := true }.setPending false) := by
  show guarded _ _ _ = _ ↔ _
  rw [guarded_eq_next, Except.ok.injEq, eq_comm (b := t)]

/-- PREDICT raises, or runs the mode's PREDICT and sets PENDING (R203). -/
theorem exec_predict_eq_next {pc : U32} {s t : State} :
    exec (.predict pc) s = .next t ↔
      (∃ k, checkPredict s = some k ∧ t = s.raise k) ∨
      (checkPredict s = none ∧ ∃ m u, s.mode = some m ∧ predictIn (modeOf m) pc s = .ok u ∧
        t = u.setPending true) := by
  show guarded _ _ _ = _ ↔ _
  rw [guarded_eq_next]
  simp only [bind_eq_ok, need_eq_ok, pure_eq_ok, Except.ok.injEq, eq_comm (b := t)]
  constructor
  · rintro (h | ⟨h, m, hm, u, hu, rfl⟩)
    · exact .inl h
    · exact .inr ⟨h, m, u, hm, hu, rfl⟩
  · rintro (h | ⟨h, m, u, hm, hu, rfl⟩)
    · exact .inl h
    · exact .inr ⟨h, m, hm, u, hu, rfl⟩

/-- TRAIN raises, or runs the mode's TRAIN and clears PENDING (R204). -/
theorem exec_train_eq_next {o : Bit} {s t : State} :
    exec (.train o) s = .next t ↔
      (∃ k, checkTrain s = some k ∧ t = s.raise k) ∨
      (checkTrain s = none ∧ ∃ m u, s.mode = some m ∧ trainIn (modeOf m) o s = .ok u ∧
        t = u.setPending false) := by
  show guarded _ _ _ = _ ↔ _
  rw [guarded_eq_next]
  simp only [bind_eq_ok, need_eq_ok, pure_eq_ok, Except.ok.injEq, eq_comm (b := t)]
  constructor
  · rintro (h | ⟨h, m, hm, u, hu, rfl⟩)
    · exact .inl h
    · exact .inr ⟨h, m, u, hm, hu, rfl⟩
  · rintro (h | ⟨h, m, u, hm, hu, rfl⟩)
    · exact .inl h
    · exact .inr ⟨h, m, hm, u, hu, rfl⟩

/-! ### The step -/

/-- One command word: ignored, illegal, or run (R232). -/
theorem perform_eq_next {w : CommandWord} {s t : State} :
    perform w s = .next t ↔
      (s.fault ≠ 0#3 ∧ t = s) ∨
      (s.fault = 0#3 ∧ ∃ e, decode w = .error e ∧ t = s.raise .illegalCommand) ∨
      (s.fault = 0#3 ∧ ∃ i, decode w = .ok i ∧ exec i s = .next t) := by
  by_cases hf : s.fault = 0#3
  · have : s.faulted = false := by
      cases h : s.faulted
      · rfl
      · exact absurd hf ((faulted_iff s).1 h)
    cases hd : decode w <;> simp [perform, this, hf, hd, eq_comm]
  · have : s.faulted = true := (faulted_iff s).2 hf
    simp [perform, this, hf, eq_comm]

/-- A step idles, takes a reset, or performs the word at the head of the port. -/
theorem step_eq_next {s t : State} :
    step s = .next t ↔
      (s.inputs = [] ∧ t = s) ∨
      (∃ rest, s.inputs = .reset :: rest ∧ t = s.takeReset rest) ∨
      (∃ w rest, s.inputs = .command w :: rest ∧ perform w (s.withInputs rest) = .next t) := by
  unfold step
  split
  · next h => simp [h, eq_comm (a := s)]
  · next rest h => simp [h, eq_comm (a := State.takeReset _ _)]
  · next w rest h => simp [h]

end Sys2Proof.Machine
end

