-- ==== Sys2Proof/Laws/PerInstr.lean ====
section
/-! SUPPORT. One fact per command, as syntax: the word the encoder writes matches its own row of
spec/opcode_table.json (30_encoding.md R73, R74, R75: match and mask). -/

namespace Sys2Proof.Laws.EncodingRow

/-- The row's mask: the opcode and every reserved bit. -/
def mask : Instr → CommandWord
  | .init _ _ _ _ => 0x00000000C0C0C0FF#64
  | .predict _ => 0x00000000FFFFFFFF#64
  | .train _ => 0xFFFFFFFFFFFFFFFB#64

/-- The row's match value. -/
def value : Instr → CommandWord
  | .init _ _ _ _ => 1#64
  | .predict _ => 2#64
  | .train _ => 3#64

/-- The encoder sets the row's fixed bits as the row says. -/
def Statement (i : Instr) : Prop := encode i &&& mask i = value i

theorem init (mode : U32) (g p l : U6) : Statement (.init mode g p l) := by
  apply BitVec.eq_of_getLsbD_eq
  intro i hi
  simp only [encode, mask, value, BitVec.getLsbD_and, BitVec.getLsbD_append]
  interval_cases i <;> simp

theorem predict (pc : U32) : Statement (.predict pc) := by
  apply BitVec.eq_of_getLsbD_eq
  intro i hi
  simp only [encode, mask, value, BitVec.getLsbD_and, BitVec.getLsbD_append]
  interval_cases i <;> simp

theorem train (t : Bit) : Statement (.train t) := by
  cases t <;> rfl

end Sys2Proof.Laws.EncodingRow
end

