-- ==== Sys2Proof/Laws/Step.lean ====
section
/-! SUPPORT. The frames of PREDICT, TRAIN and INIT over all modes at once, the command behind a step,
and one step of a run. -/

namespace Sys2Proof.Machine

/-- In every mode PREDICT writes one response and token registers only (R39, R71). -/
theorem predictIn_frame {m : Mode} {pc : U32} {s u : State} (h : predictIn m pc s = .ok u) :
    ∃ b, u = { s with
      resp := s.resp ++ [b], tokGidx := u.tokGidx, tokPidx := u.tokPidx, tokLidx := u.tokLidx,
      tokGpred := u.tokGpred, tokLpred := u.tokLpred, tokSum := u.tokSum } := by
  cases m <;> simp only [predictIn, Except.ok.injEq] at h
  · exact ⟨true, by rw [← h]; rfl⟩
  · obtain ⟨g, h', c, -, -, -, rfl⟩ := gsharePredict_eq_ok.1 h
    exact ⟨_, rfl⟩
  · obtain ⟨g, p, l, h', cm, lh, cl, cg, -, -, -, -, -, -, -, -, rfl⟩ := tournamentPredict_eq_ok.1 h
    exact ⟨_, rfl⟩
  · obtain ⟨g, p, h', bias, ws, -, -, -, -, -, -, rfl⟩ := customPredict_eq_ok.1 h
    exact ⟨_, rfl⟩
  · exact ⟨false, by rw [← h]; rfl⟩

/-- In every mode TRAIN writes GHR and tables only (R39, R204). -/
theorem trainIn_frame {m : Mode} {o : Bit} {s u : State} (h : trainIn m o s = .ok u) :
    u = { s with
      ghr := u.ghr, gpht := u.gpht, tgpt := u.tgpt, tlpt := u.tlpt, tmeta := u.tmeta,
      lht := u.lht, pbias := u.pbias, pw := u.pw } := by
  cases m <;> simp only [trainIn, Except.ok.injEq] at h
  · rw [← h]
  · obtain ⟨g, h', i, v, -, -, -, -, rfl⟩ := gshareTrain_eq_ok.1 h
    rfl
  · obtain ⟨g, l, h', gi, pi, li, gp, lp, tg, tl, tm, lh, lt, -, -, -, -, -, -, -, -, -, -, -, -, -,
      rfl⟩ := tournamentTrain_eq_ok.1 h
    rfl
  · obtain ⟨g, h', th, b, x, -, -, -, -, -, ⟨-, rfl⟩ | ⟨-, v, hv, rfl⟩⟩ := customTrain_eq_ok.1 h
    · rfl
    · obtain ⟨bias, tb, ws, tw, -, -, -, -, -, rfl⟩ := customUpdate_eq_ok.1 hv
      rfl
  · rw [← h]

/-- INIT's state keeps every flag, token, port and the parameter (R202). -/
theorem initState_frame (mode : U32) (g p l : U6) (s : State) :
    initState mode g p l s = { s with
      mode := some mode, gbits := some g, pbits := some p, lbits := some l,
      ghr := (initState mode g p l s).ghr, theta := (initState mode g p l s).theta,
      gpht := (initState mode g p l s).gpht, tgpt := (initState mode g p l s).tgpt,
      tlpt := (initState mode g p l s).tlpt, tmeta := (initState mode g p l s).tmeta,
      lht := (initState mode g p l s).lht, pbias := (initState mode g p l s).pbias,
      pw := (initState mode g p l s).pw } := by
  unfold initState
  cases modeOf mode <;> rfl

/-- An unfaulted block performs the command its word decodes to (R232). -/
theorem perform_of_decode {w : CommandWord} {i : Instr} {s : State} (hf : s.fault = 0#3)
    (hd : decode w = .ok i) : perform w s = exec i s := by
  have : s.faulted = false := by
    cases h : s.faulted
    · rfl
    · exact absurd hf ((faulted_iff s).1 h)
  simp [perform, this, hd]

/-- A faulted block ignores a word (R233). -/
theorem perform_of_faulted {s : State} (hf : s.fault ≠ 0#3) (w : CommandWord) :
    perform w s = .next s := perform_eq_next.2 (.inl ⟨hf, rfl⟩)

/-- Everything a step on a command word can do: ignore it, raise a fault, initialize, predict, or
train. -/
theorem command_step_cases {s t : State} {w : CommandWord} {rest : List Input}
    (h : s.inputs = .command w :: rest) (hs : step s = .next t) :
    (s.fault ≠ 0#3 ∧ t = s.withInputs rest) ∨
    (s.fault = 0#3 ∧ ∃ k, t = (s.withInputs rest).raise k) ∨
    (s.fault = 0#3 ∧ s.initDone = false ∧ ∃ mode g p l, decode w = .ok (.init mode g p l) ∧
      legalWidth g = true ∧ legalWidth p = true ∧ legalWidth l = true ∧
      t = { initState mode g p l (s.withInputs rest) with initDone := true }.setPending false) ∨
    (s.fault = 0#3 ∧ s.initDone = true ∧ s.pending = false ∧ ∃ pc m u,
      decode w = .ok (.predict pc) ∧ s.mode = some m ∧
      predictIn (modeOf m) pc (s.withInputs rest) = .ok u ∧ t = u.setPending true) ∨
    (s.fault = 0#3 ∧ s.initDone = true ∧ s.pending = true ∧ ∃ o m u,
      decode w = .ok (.train o) ∧ s.mode = some m ∧
      trainIn (modeOf m) o (s.withInputs rest) = .ok u ∧ t = u.setPending false) := by
  rcases step_eq_next.1 hs with ⟨h', -⟩ | ⟨r, h', -⟩ | ⟨w', r, h', hp⟩
  · simp [h] at h'
  · simp [h] at h'
  · rw [h] at h'
    cases h'
    rcases perform_eq_next.1 hp with ⟨hf, rfl⟩ | ⟨hf, e, -, rfl⟩ | ⟨hf, i, hd, hx⟩
    · exact .inl ⟨hf, rfl⟩
    · exact .inr (.inl ⟨hf, _, rfl⟩)
    · cases i with
      | init mode g p l =>
        rcases exec_init_eq_next.1 hx with ⟨k, -, rfl⟩ | ⟨hc, rfl⟩
        · exact .inr (.inl ⟨hf, k, rfl⟩)
        · obtain ⟨hi, hg, hp, hl⟩ := checkInit_none.1 hc
          exact .inr (.inr (.inl ⟨hf, hi, mode, g, p, l, hd, hg, hp, hl, rfl⟩))
      | predict pc =>
        rcases exec_predict_eq_next.1 hx with ⟨k, -, rfl⟩ | ⟨hc, m, u, hm, hu, rfl⟩
        · exact .inr (.inl ⟨hf, k, rfl⟩)
        · obtain ⟨hi, hp⟩ := checkPredict_none.1 hc
          exact .inr (.inr (.inr (.inl ⟨hf, hi, hp, pc, m, u, hd, hm, hu, rfl⟩)))
      | train o =>
        rcases exec_train_eq_next.1 hx with ⟨k, -, rfl⟩ | ⟨hc, m, u, hm, hu, rfl⟩
        · exact .inr (.inl ⟨hf, k, rfl⟩)
        · obtain ⟨hi, hp⟩ := checkTrain_none.1 hc
          exact .inr (.inr (.inr (.inr ⟨hf, hi, hp, o, m, u, hd, hm, hu, rfl⟩)))

@[simp] theorem run_zero (s : State) : run 0 s = .next s := rfl

/-- One step of a run. -/
theorem run_succ (n : Nat) (s : State) :
    run (n + 1) s =
      match step s with
      | .next t => run n t
      | .fault r => .fault r
      | .refused r => .refused r := rfl

theorem run_of_step {s t : State} (h : step s = .next t) (n : Nat) :
    run (n + 1) s = run n t := by
  rw [run_succ, h]

end Sys2Proof.Machine
end

