-- ==== Sys2Proof/Tests/Slice0.lean ====
section
/-! SUPPORT. Tests whose expected results are the spec's own (95_test_vectors.md, 30_encoding.md R81),
and, for every statement that has hypotheses, a witness `wit_<statement>` that meets them all, with one
for each clause. -/

namespace Sys2Proof.Tests.Slice0

open Sys2Proof Sys2Proof.Machine

/-! ### The states the tests start from -/

/-- The next state, if the step answers one. -/
def after : Host.Outcome State Fault Refusal → Option State
  | .next s => some s
  | .fault _ => none
  | .refused _ => none

/-- An initialized block with `pending` as given. -/
def configured (mode : U32) (g p l : U6) (pending : Bit) : State :=
  { State.reset with
    initDone := true, pending := pending, mode := some mode, gbits := some g, pbits := some p,
    lbits := some l }

/-- STATIC, and an unrecognized mode. -/
def static (pending : Bit) : State := configured 0 1 1 1 pending
def unrecognized (mode : U32) (pending : Bit) : State := configured mode 1 1 1 pending

/-- The state of V-G1: GBITS 3, GHR 0b101, every counter 1. -/
def gshare (pending : Bit) : State :=
  { configured 1 3 1 1 pending with
    ghr := some 5, gpht := some (Table.filled 3 1), tokGidx := if pending then some 3 else none }

/-- The state of V-G4: GBITS 32, the one counter that is not 1 at 0x7FFFFFFE. -/
def gshare32 (pending : Bit) : State :=
  { configured 1 32 1 1 pending with
    ghr := some 0x80000001, gpht := some ⟨32, 1, [(0x7FFFFFFE, 2)]⟩,
    tokGidx := if pending then some 0x7FFFFFFE else none }

/-- The start state of V-T1 and V-T2. -/
def tournament (pending : Bit) : State :=
  { configured 2 2 2 2 pending with
    ghr := some 2, lht := some ⟨2, 0, [(1, 3)]⟩, tgpt := some ⟨2, 1, [(2, 0)]⟩,
    tlpt := some ⟨2, 1, [(3, 3)]⟩, tmeta := some ⟨2, 1, [(2, 2)]⟩,
    tokGidx := if pending then some 2 else none, tokPidx := if pending then some 1 else none,
    tokLidx := if pending then some 3 else none,
    tokGpred := if pending then some false else none,
    tokLpred := if pending then some true else none }

/-- The start state of V-T3 and V-T4, where the two predictions agree. -/
def agreeing (pending : Bit) : State :=
  { configured 2 1 1 1 pending with
    ghr := some 0, lht := some ⟨1, 0, []⟩, tgpt := some ⟨1, 1, [(0, 3)]⟩,
    tlpt := some ⟨1, 1, [(0, 2)]⟩, tmeta := some ⟨1, 1, [(0, 0)]⟩,
    tokGidx := if pending then some 0 else none, tokPidx := if pending then some 0 else none,
    tokLidx := if pending then some 0 else none,
    tokGpred := if pending then some true else none,
    tokLpred := if pending then some true else none }

/-- A perceptron with GBITS 2 and bucket 0 as given (V-P1 to V-P9). -/
def custom (theta : Int) (ghr : U32) (bias : List (Nat × Weight)) (ws : List (Nat × List Weight))
    (sum : Option SumWord) : State :=
  { configured 3 2 1 1 sum.isSome with
    theta := some theta, ghr := some ghr, pbias := some ⟨1, 1, bias⟩, pw := some ⟨1, [0, 0], ws⟩,
    tokPidx := if sum.isSome then some 0 else none, tokSum := sum }

/-- A block with a word at its port. -/
def given (s : State) (w : CommandWord) : State := { s with inputs := [.command w] }

/-! ### The source form's checks refuse ill-formed terms (R80) -/

theorem test_wellFormed_refuses_mode :
    (SourceCommand.init (.number (2 ^ 32)) 1 1 1).wellFormed = false := by decide
theorem test_wellFormed_refuses_gbits :
    (SourceCommand.init (.named .GSHARE) 64 1 1).wellFormed = false := by decide
theorem test_wellFormed_refuses_pbits :
    (SourceCommand.init (.named .GSHARE) 1 64 1).wellFormed = false := by decide
theorem test_wellFormed_refuses_lbits :
    (SourceCommand.init (.named .GSHARE) 1 1 64).wellFormed = false := by decide
theorem test_wellFormed_refuses_pc : (SourceCommand.predict (2 ^ 32)).wellFormed = false := by decide
theorem test_wellFormed_takes_widest :
    (SourceCommand.init (.number (2 ^ 32 - 1)) 63 63 63).wellFormed = true ∧
    (SourceCommand.predict (2 ^ 32 - 1)).wellFormed = true := by decide

/-- Lines of 30_encoding.md R81 and of program P4, and lines the assembler must refuse. -/
theorem test_assembleLine :
    assembleLine "INIT CUSTOM, 32, 32, 32".toList = .word 0x0000000320202001#64 ∧
    assembleLine "PREDICT 0x400120".toList = .word 0x0040012000000002#64 ∧
    assembleLine "TRAIN   N                   ; 0x3".toList = .word 3#64 ∧
    assembleLine "  ; a comment".toList = .blank ∧
    assembleLine "INIT GSHARE, 64, 1, 1".toList = .refused ∧
    assembleLine "PREDICT 4294967296".toList = .refused := by decide

/-! ### Decoding: words written out bit by bit from R73 to R75 (V-E1 to V-E12) -/

/-- mode 3 | 00 lbits 33 | 00 pbits 2 | 00 gbits 1 | 000000 | op 01. -/
theorem test_decode_init :
    decode 0b00000000000000000000000000000011_00_100001_00_000010_00_000001_000000_01#64 =
      .ok (.init 3 1 2 33) := by decide
/-- pc 0x00400125 | 30 zeros | op 10. -/
theorem test_decode_predict :
    decode 0b00000000010000000000000100100101_000000000000000000000000000000_10#64 =
      .ok (.predict 0x00400125) := by decide
/-- 61 zeros | t 1 | op 11, and t 0. -/
theorem test_decode_train :
    decode 0b1_11#64 = .ok (.train true) ∧ decode 0b0_11#64 = .ok (.train false) := by decide
theorem test_decode_illegal :
    decode 0x0000000101010105#64 = .error .reservedInit ∧
    decode 0x0000000141010101#64 = .error .reservedInit ∧
    decode 0x0000000000000006#64 = .error .reservedPredict ∧
    decode 0x000000000000000F#64 = .error .reservedTrain ∧
    decode 0x0000000000000000#64 = .error .opZero ∧
    decode 0xFFFFFFFFFFFFFFFC#64 = .error .opZero := by decide
/-- V-E5, V-E6: the widths 0 and 33 are legal encodings. -/
theorem test_decode_any_width :
    decode 0x0000000101010001#64 = .ok (.init 1 0 1 1) ∧
    decode 0x0000000101012101#64 = .ok (.init 1 33 1 1) := by decide
theorem test_decodeTableWord :
    decodeTableWord 64 0x0000123400000002 = some (.predict 0x1234) ∧
    decodeTableWord 64 0 = none := by decide

/-! ### Primitives (V-H, V-I, V-C, and the weight vectors of section 2.3) -/

/-- V-H1 to V-H7. -/
theorem test_histShift :
    histShift 0 true 1 = 1 ∧ histShift 1 false 1 = 0 ∧ histShift 5 true 3 = 3 ∧
    histShift 3 false 3 = 6 ∧ histShift 0x80000000 true 32 = 1 ∧
    histShift 0xFFFFFFFF false 32 = 0xFFFFFFFE ∧
    histShift 0x7FFFFFFF true 32 = 0xFFFFFFFF := by decide
/-- R101's example. -/
theorem test_histBit : histBit 2 0 = false ∧ histBit 2 1 = true := by decide
/-- V-I1 to V-I4. -/
theorem test_idx :
    idx 0x400125 3 = 5 ∧ idx 0xFFFFFFFF 1 = 1 ∧ idx 0xFFFFFFFF 32 = 0xFFFFFFFF ∧
    idx 0x100 8 = 0 := by decide
/-- V-C1 to V-C8. -/
theorem test_satUpdate :
    [0, 1, 2, 3].map (satUpdate · true) = [1, 2, 3, 3] ∧
    [0, 1, 2, 3].map (satUpdate · false) = [0, 0, 1, 2] ∧
    [0, 1, 2, 3].map ctrPred = [false, false, true, true] := by decide
theorem test_weights :
    [126, 127, -127].map (fun x => wInc (BitVec.ofInt 8 x)) = [127#8, 127#8, -126#8] ∧
    [-126, -127, 127].map (fun x => wDec (BitVec.ofInt 8 x)) = [-127#8, -127#8, 126#8] := by decide
/-- R106's examples. -/
theorem test_signs :
    oSign true = 1 ∧ oSign false = -1 ∧ pSign 0 = 1 ∧ pSign (-1) = -1 := by decide
/-- R174's table. -/
theorem test_theta :
    [1, 2, 3, 4, 8, 12, 16, 32].map thetaDefault = [15, 17, 19, 21, 29, 37, 44, 75] := by decide
/-- V-P1 to V-P4, V-P13, V-P14. -/
theorem test_percSum :
    percSum 1 [0, 0] 0 = 1 ∧ percSum 2 [-1, -1] 1 = 2 ∧ percSum 1 [-4, 2] 1 = -5 ∧
    percSum 127 (List.replicate 32 127) 0xFFFFFFFF = 4191 ∧
    percSum (-127) (List.replicate 32 127) 0 = -4191 := by decide

/-! ### One step of each command -/

/-- R261: INIT in each mode. -/
theorem test_init_modes :
    after (step (given State.reset 0x0000000101010101#64)) =
      some { configured 1 1 1 1 false with
        ghr := some 0, gpht := some (Table.filled 1 1) } ∧
    after (step (given State.reset 0x0000000202020201#64)) =
      some { configured 2 2 2 2 false with
        ghr := some 0, tgpt := some (Table.filled 2 1), tlpt := some (Table.filled 2 1),
        tmeta := some (Table.filled 2 1), lht := some (Table.filled 2 0) } ∧
    after (step (given State.reset 0x0000000301010201#64)) =
      some { configured 3 2 1 1 false with
        ghr := some 0, theta := some 17, pbias := some (Table.filled 1 1),
        pw := some (Table.filled 1 [0, 0]) } ∧
    after (step (given State.reset 0x0000000001010101#64)) = some (static false) ∧
    after (step (given State.reset 0x0000000701010101#64)) = some (unrecognized 7 false) := by
  decide
/-- V-F3 to V-F7. -/
theorem test_init_faults :
    after (step (given State.reset 0x0000000101010001#64)) = some { State.reset with fault := 4 } ∧
    after (step (given State.reset 0x0000000101012101#64)) = some { State.reset with fault := 4 } ∧
    after (step (given (gshare false) 0x0000000101010101#64)) =
      some { gshare false with fault := 3 } ∧
    after (step (given (gshare false) 0x0000000101010001#64)) =
      some { gshare false with fault := 3 } ∧
    after (step (given State.reset 0#64)) = some { State.reset with fault := 1 } := by decide

/-- V-G1, V-G4, V-T1's PREDICT, V-P3, V-P4, V-D1, V-D3. -/
theorem test_predict_modes :
    after (exec (.predict 0x400126) (gshare false)) =
      some { gshare true with resp := [false] } ∧
    after (exec (.predict 0xFFFFFFFF) (gshare32 false)) =
      some { gshare32 true with resp := [true] } ∧
    after (exec (.predict 5) (tournament false)) = some { tournament true with resp := [true] } ∧
    after (exec (.predict 0) (agreeing false)) = some { agreeing true with resp := [true] } ∧
    after (exec (.predict 0) (custom 17 0 [(0, 0)] [] none)) =
      some { custom 17 0 [(0, 0)] [] (some 0) with resp := [true] } ∧
    after (exec (.predict 2) (custom 17 1 [] [(0, [-4, 2])] none)) =
      some { custom 17 1 [] [(0, [-4, 2])] (some (-5)) with resp := [false] } ∧
    after (exec (.predict 9) (static false)) = some { static true with resp := [true] } ∧
    after (exec (.predict 0xFFFFFFFF) (unrecognized 7 false)) =
      some { unrecognized 7 true with resp := [false] } := by decide
/-- V-F2, V-F10. -/
theorem test_predict_faults :
    after (exec (.predict 0) State.reset) = some { State.reset with fault := 2 } ∧
    after (exec (.predict 1) (gshare true)) = some { gshare true with fault := 5 } := by decide

/-- V-G1, V-G4, V-T1 to V-T4, V-P2, V-P5, V-P6, V-P9, V-D2, V-D5. -/
theorem test_train_modes :
    after (exec (.train true) (gshare true)) =
      some { gshare true with pending := false, gpht := some ⟨3, 1, [(3, 2)]⟩, ghr := some 3 } ∧
    after (exec (.train false) (gshare32 true)) =
      some { gshare32 true with
        pending := false, gpht := some (Table.filled 32 1), ghr := some 2 } ∧
    after (exec (.train true) (tournament true)) =
      some { tournament true with
        pending := false, ghr := some 1, tgpt := some (Table.filled 2 1),
        tmeta := some ⟨2, 1, [(2, 3)]⟩ } ∧
    after (exec (.train false) (tournament true)) =
      some { tournament true with
        pending := false, ghr := some 0, tlpt := some ⟨2, 1, [(3, 2)]⟩,
        tmeta := some (Table.filled 2 1), lht := some ⟨2, 0, [(1, 2)]⟩ } ∧
    after (exec (.train true) (agreeing true)) =
      some { agreeing true with
        pending := false, ghr := some 1, tlpt := some ⟨1, 1, [(0, 3)]⟩,
        lht := some ⟨1, 0, [(0, 1)]⟩ } ∧
    after (exec (.train false) (agreeing true)) =
      some { agreeing true with
        pending := false, tgpt := some ⟨1, 1, [(0, 2)]⟩, tlpt := some (Table.filled 1 1) } ∧
    after (exec (.train false) (custom 17 1 [(0, 2)] [(0, [-1, -1])] (some 2))) =
      some { custom 17 2 [] [(0, [-2, 0])] (some 2) with pending := false } ∧
    after (exec (.train true) (custom 17 0 [(0, 17)] [] (some 17))) =
      some { custom 17 1 [(0, 18)] [(0, [-1, -1])] (some 17) with pending := false } ∧
    after (exec (.train true) (custom 17 0 [(0, 18)] [] (some 18))) =
      some { custom 17 1 [(0, 18)] [] (some 18) with pending := false } ∧
    after (exec (.train false) (custom 17 0 [(0, -17)] [] (some (-17)))) =
      some { custom 17 0 [(0, -18)] [(0, [1, 1])] (some (-17)) with pending := false } ∧
    after (exec (.train false) (static true)) = some (static false) ∧
    after (exec (.train true) (unrecognized 4 true)) = some (unrecognized 4 false) := by decide
/-- V-F1, V-F8. -/
theorem test_train_faults :
    after (exec (.train true) State.reset) = some { State.reset with fault := 2 } ∧
    after (exec (.train true) (gshare false)) = some { gshare false with fault := 6 } := by decide
/-- V-F9: a faulting word leaves everything but FAULT. -/
theorem test_illegal_word :
    after (step (given (gshare true) 0xF#64)) = some { gshare true with fault := 1 } := by decide

/-! ### Witnesses: encoding -/

theorem wit_EncodeDecodeIsIdentity :
    decode 1#64 = .ok (.init 0 0 0 0) ∧
    decode 0xFFFFFFFF3F3F3F01#64 = .ok (.init 0xFFFFFFFF 63 63 63) := by decide

/-- The lowest and the highest reserved bit of each format, and `op = 0b00`. -/
theorem wit_IllegalEncodings :
    [0#64, 5#64, 0x80000001#64, 6#64, 0x80000002#64, 0xB#64, 0x8000000000000003#64].all
      (fun w => (given State.reset w).inputs = [.command w] ∧ (given State.reset w).fault = 0#3 ∧
        !(decode w).isOk) = true ∧ ∀ n, 4#32 ≠ modeValue n := by
  refine ⟨by decide, fun n => ?_⟩
  cases n <;> decide

theorem wit_AssemblerPlacesOperands :
    (SourceCommand.init (.number (2 ^ 32 - 1)) 63 63 63).wellFormed = true ∧
    (SourceCommand.predict 0).wellFormed = true ∧ (SourceCommand.train .N).wellFormed = true ∧
    (SourceCommand.predict (2 ^ 32)).wellFormed = false := by decide

/-! ### Witnesses: steps, reset, faults -/

theorem wit_StepRunsDecodedCommand :
    (given (gshare false) 2#64).inputs = [.command 2#64] ∧ (given (gshare false) 2#64).fault = 0#3 ∧
    decode 2#64 = .ok (.predict 0) := by decide

theorem wit_IdleStepChangesNothing : State.reset.inputs = [] := by decide

/-- The lowest and the highest code, with a word and with a reset presented. -/
theorem wit_FaultedBlockIgnoresCommands :
    [1#3, 6#3].all (fun c => ({ gshare true with fault := c } : State).fault ≠ 0#3 ∧
      ({ given (gshare true) 7#64 with fault := c } : State).inputs = [.command 7#64] ∧
      ({ gshare true with fault := c, inputs := [.reset] } : State).inputs = [.reset]) = true := by
  decide

theorem wit_FaultedBlockStaysFaulted :
    let s := { gshare true with fault := 5, inputs := [.command 7#64, .command 0#64] }
    s.fault ≠ 0#3 ∧ s.inputs = [7#64, 0#64].map .command := by decide

theorem wit_ResetLeavesNothing :
    ({ tournament true with fault := 6, inputs := [.reset] } : State).inputs = .reset :: [] := by
  decide

theorem wit_ResetTakesEffectBeforeCommand :
    ({ gshare true with inputs := [.reset, .command 2#64] } : State).inputs =
      .reset :: .command 2#64 :: [] := by decide

/-- Widths 1 and 32, which succeed, and 0 and 33, which do not. -/
theorem wit_OnlyInitSucceedsAfterReset :
    (∃ t, perform 0x0000000101010101#64 State.reset = .next t ∧ t.fault = 0#3) ∧
    (∃ t, perform 0x0000000320202001#64 State.reset = .next t ∧ t.fault = 0#3) ∧
    (∃ t, perform 0x0000000101010001#64 State.reset = .next t ∧ t.fault ≠ 0#3) ∧
    (∃ t, perform 0x0000000101012101#64 State.reset = .next t ∧ t.fault ≠ 0#3) :=
  ⟨⟨_, rfl, by decide⟩, ⟨_, rfl, by decide⟩, ⟨_, rfl, by decide⟩, ⟨_, rfl, by decide⟩⟩

/-- A state for each clause: faulted, illegal word, and each command's checks failed and passed. -/
theorem wit_ChecksInOrder :
    ({ gshare true with fault := 1 } : State).fault ≠ 0#3 ∧
    (State.reset.fault = 0#3 ∧ decode 0#64 = .error .opZero) ∧
    (State.reset.fault = 0#3 ∧ decode 2#64 = .ok (.predict 0)) ∧
    ((gshare false).initDone = true ∧ (gshare false).pending = false) ∧
    ((gshare true).initDone = true ∧ (gshare true).pending = true) ∧
    State.reset.initDone = false ∧
    (1 ≤ (1#6).toNat ∧ (32#6).toNat ≤ 32) ∧ ¬ 1 ≤ (0#6).toNat ∧ ¬ (33#6).toNat ≤ 32 := by decide

theorem wit_ChecksInOrder_passed :
    (∃ t, exec (.predict 0) (gshare false) = .next t) ∧
    ∃ t, exec (.train true) (gshare true) = .next t := ⟨⟨_, rfl⟩, ⟨_, rfl⟩⟩

/-- The lowest and the highest code raised by a command. -/
theorem wit_FaultsArePrecise :
    (∃ t, step (given (gshare true) 0#64) = .next t ∧ t.fault ≠ (given (gshare true) 0#64).fault) ∧
    ∃ t, step (given (gshare false) 7#64) = .next t ∧ t.fault ≠ (given (gshare false) 7#64).fault :=
  ⟨⟨_, rfl, by decide⟩, ⟨_, rfl, by decide⟩⟩

theorem wit_FaultRegisterRule :
    (∃ t, step (given (gshare true) 2#64) = .next t ∧ t.fault ≠ (given (gshare true) 2#64).fault) ∧
    ∃ t, step { gshare true with fault := 5, inputs := [.reset] } = .next t ∧
      t.fault ≠ ({ gshare true with fault := 5, inputs := [.reset] } : State).fault :=
  ⟨⟨_, rfl, by decide⟩, ⟨_, rfl, by decide⟩⟩

theorem wit_InitDoneRule :
    State.reset.initDone = false ∧
    ∃ t, step { gshare true with inputs := [.reset] } = .next t ∧
      ({ gshare true with inputs := [.reset] } : State).initDone = true ∧ t.initDone = false :=
  ⟨by decide, _, rfl, by decide⟩

theorem wit_PendingRule :
    State.reset.initDone = false ∧
    (∃ t, (static false).initDone = true ∧ (static false).pending = false ∧
      exec (.predict 9) (static false) = .next t) ∧
    ∃ t, (tournament true).initDone = true ∧ (tournament true).pending = true ∧
      exec (.train false) (tournament true) = .next t :=
  ⟨by decide, ⟨_, by decide, by decide, rfl⟩, _, by decide, by decide, rfl⟩

theorem wit_ConfigurationNeverChanges :
    (∃ t, step (given (custom 17 0 [] [] (some 1)) 7#64) = .next t ∧
      (given (custom 17 0 [] [] (some 1)) 7#64).initDone = true) ∧
    ∃ t, step (given State.reset 0xFFFFFFFF01010101#64) = .next t ∧
      t.mode ≠ (given State.reset 0xFFFFFFFF01010101#64).mode :=
  ⟨⟨_, rfl, by decide⟩, ⟨_, rfl, by decide⟩⟩

/-- Each table changed by its own TRAIN and by INIT, and a PREDICT. -/
theorem wit_TablesHaveOneOwner :
    (∃ t, step (given (gshare true) 7#64) = .next t ∧ t.gpht ≠ (given (gshare true) 7#64).gpht) ∧
    (∃ t, step (given (tournament true) 7#64) = .next t ∧
      t.tgpt ≠ (given (tournament true) 7#64).tgpt) ∧
    (∃ t, step (given (custom 17 0 [] [] (some 1)) 7#64) = .next t ∧
      t.pbias ≠ (given (custom 17 0 [] [] (some 1)) 7#64).pbias) ∧
    (∃ t, step (given State.reset 0x0000000101010101#64) = .next t ∧
      t.gpht ≠ (given State.reset 0x0000000101010101#64).gpht) ∧
    ∃ t, step (given (tournament false) 2#64) = .next t ∧ decode 2#64 = .ok (.predict 0) :=
  ⟨⟨_, rfl, by decide⟩, ⟨_, rfl, by decide⟩, ⟨_, rfl, by decide⟩, ⟨_, rfl, by decide⟩,
    ⟨_, rfl, by decide⟩⟩

/-- Every register of each row written. -/
theorem wit_TokenWrittenByPredict :
    (∃ t, step (given (gshare false) 2#64) = .next t ∧ t.tokGidx ≠ (gshare false).tokGidx) ∧
    (∃ t, step (given (tournament false) 2#64) = .next t ∧
      t.tokGidx ≠ (tournament false).tokGidx ∧ t.tokPidx ≠ (tournament false).tokPidx ∧
      t.tokLidx ≠ (tournament false).tokLidx ∧ t.tokGpred ≠ (tournament false).tokGpred ∧
      t.tokLpred ≠ (tournament false).tokLpred) ∧
    ∃ t, step (given (custom 17 0 [] [] none) 2#64) = .next t ∧
      t.tokPidx ≠ (custom 17 0 [] [] none).tokPidx ∧ t.tokSum ≠ (custom 17 0 [] [] none).tokSum :=
  ⟨⟨_, rfl, by decide⟩, ⟨_, rfl, by decide⟩, _, rfl, by decide⟩

theorem wit_StaleTokenIsNeverRead :
    let s := given (tournament false) 2#64
    let s' := { s with tokGidx := some 3, tokLpred := some true }
    s.pending = false ∧ s' ≠ s ∧ (s' = { s with
      tokGidx := s'.tokGidx, tokPidx := s'.tokPidx, tokLidx := s'.tokLidx,
      tokGpred := s'.tokGpred, tokLpred := s'.tokLpred, tokSum := s'.tokSum }) ∧
    ∃ t, step s = .next t := ⟨by decide, by decide, by decide, _, rfl⟩

theorem wit_OneResponsePerPredict :
    (∃ t, (given (gshare false) 2#64).fault = 0#3 ∧ step (given (gshare false) 2#64) = .next t ∧
      t.fault = 0#3 ∧ decode 2#64 = .ok (.predict 0)) ∧
    (∃ t, (given (gshare true) 2#64).fault = 0#3 ∧ step (given (gshare true) 2#64) = .next t ∧
      t.fault ≠ 0#3) ∧
    ∃ t, (given (gshare true) 3#64).fault = 0#3 ∧ step (given (gshare true) 3#64) = .next t ∧
      decode 3#64 = .ok (.train false) :=
  ⟨⟨_, by decide, rfl, by decide⟩, ⟨_, by decide, rfl, by decide⟩, _, by decide, rfl, by decide⟩

/-! ### Witnesses: primitives and tables -/

/-- The widths 1 and 32, and the top bit position below width 32. -/
theorem wit_HistoryShift : (1 ≤ 1 ∧ 1 ≤ 32) ∧ (1 ≤ 32 ∧ 32 ≤ 32) ∧ 1 ≤ 31 ∧ 31 < 32 := by decide

theorem wit_IndexMask : (1 ≤ 1 ∧ 1 ≤ 32) ∧ (1 ≤ 32 ∧ 32 ≤ 32) := by decide

/-- The two ends of a weight's range. -/
theorem wit_WeightSaturates :
    (-127 ≤ (-127#8 : Weight).toInt ∧ (-127#8 : Weight).toInt ≤ 127) ∧
    (-127 ≤ (127#8 : Weight).toInt ∧ (127#8 : Weight).toInt ≤ 127) := by decide

theorem wit_PerceptronSumFits :
    inBound (-127#8) ∧ (∀ w ∈ List.replicate 32 (127#8 : Weight), inBound w) ∧
    (List.replicate 32 (127#8 : Weight)).length ≤ 32 := by decide

/-- The first and the last entry, and the last lane of a row. -/
theorem wit_TableWriteChangesOneEntry :
    0 < 2 ^ (Table.filled 2 (1 : Counter)).bits ∧ 3 < 2 ^ (Table.filled 2 (1 : Counter)).bits ∧
    (Table.filled 1 [0, 0] : Table (List Weight)).read 1 = some [0, 0] ∧
    1 < ([0, 0] : List Weight).length := by decide

/-- The first index out of range. -/
theorem wit_IndexOutOfRangeIsModelFault :
    2 ^ (Table.filled 2 (1 : Counter)).bits ≤ (4 : U32).toNat := by decide

theorem wit_TableFormIsCanonical :
    (Table.filled 2 (1 : Counter)).wf ∧
    (Table.filled 2 (1 : Counter)).write 3 2 = some ⟨2, 1, [(3, 2)]⟩ ∧
    (Table.mk 2 (1 : Counter) [(3, 2)]).wf := by decide

theorem wit_TableFormIsCanonical_equal :
    ∃ t u : Table Counter, t.wf ∧ u.wf ∧ t.bits = u.bits ∧ t.fill = u.fill ∧
      ∀ j, t.read j = u.read j :=
  ⟨⟨2, 1, [(3, 2)]⟩, ⟨2, 1, [(3, 2)]⟩, by decide, by decide, rfl, rfl, fun _ => rfl⟩

theorem wit_CounterTableOperations :
    (Table.mk 2 (1 : Counter) [(3, 2)]).read (3 : U32).toNat = some 2 ∧
    (Table.mk 2 (1 : Counter) [(3, 2)]).read (0 : U32).toNat = some 1 := by decide

/-! ### Witnesses: the commands -/

/-- The ends of the width range, and a mode of each clause at its boundary. -/
theorem wit_InitWritesModeState :
    State.reset.initDone = false ∧ 1 ≤ (1#6).toNat ∧ (32#6).toNat ≤ 32 ∧
    [.GSHARE, .TOURNAMENT, .CUSTOM].all (fun n => modeValue .STATIC ≠ modeValue n ∧
      (4 : U32) ≠ modeValue n ∧ (0xFFFFFFFF : U32) ≠ modeValue n) = true := by decide

theorem wit_ModeNumbers :
    4 ≤ (4 : U32).toNat ∧ modeOf 4 = .unrecognized ∧ modeOf 0xFFFFFFFF = .unrecognized := by decide

theorem wit_DefaultTheta : 0 ≤ 32 ∧ 32 ≤ 32 := by decide

theorem wit_StaticMode :
    ((static false).initDone = true ∧ (static false).mode = some (modeValue .STATIC) ∧
      (static false).pending = false) ∧
    ((static true).initDone = true ∧ (static true).mode = some (modeValue .STATIC) ∧
      (static true).pending = true) := by decide

/-- The lowest and the highest unrecognized mode. -/
theorem wit_UnrecognizedMode :
    [4#32, 0xFFFFFFFF#32].all (fun m => (unrecognized m false).initDone ∧
      (unrecognized m false).mode = some m ∧
      [.STATIC, .GSHARE, .TOURNAMENT, .CUSTOM].all (m ≠ modeValue ·) ∧
      !(unrecognized m false).pending ∧
      (unrecognized m true).pending) = true := by decide

/-- Widths 3 and 32. -/
theorem wit_GsharePredict :
    ((gshare false).initDone = true ∧ (gshare false).pending = false ∧
      (gshare false).mode = some (modeValue .GSHARE) ∧ (gshare false).gbits = some 3 ∧
      (gshare false).ghr = some 5 ∧
      (3#32).toNat = ((5#32).toNat % 2 ^ (3#6).toNat) ^^^ ((0x400126#32).toNat % 2 ^ (3#6).toNat) ∧
      entryAt (gshare false).gpht (3#32).toNat = some 1) ∧
    ((gshare32 false).initDone = true ∧ (gshare32 false).pending = false ∧
      (gshare32 false).mode = some (modeValue .GSHARE) ∧ (gshare32 false).gbits = some 32 ∧
      (gshare32 false).ghr = some 0x80000001 ∧
      (0x7FFFFFFE#32).toNat = ((0x80000001#32).toNat % 2 ^ (32#6).toNat) ^^^
        ((0xFFFFFFFF#32).toNat % 2 ^ (32#6).toNat) ∧
      entryAt (gshare32 false).gpht (0x7FFFFFFE#32).toNat = some 2) := by decide

theorem wit_GshareTrain :
    (gshare true).initDone = true ∧ (gshare true).pending = true ∧
    (gshare true).mode = some (modeValue .GSHARE) ∧ (gshare true).gbits = some 3 ∧
    (gshare true).ghr = some 5 ∧
    (gshare true).tokGidx = some 3 ∧ entryAt (gshare true).gpht (3#32).toNat = some 1 := by decide

theorem wit_TournamentPredict :
    let s := tournament false
    s.initDone = true ∧ s.pending = false ∧ s.mode = some (modeValue .TOURNAMENT) ∧ s.gbits = some 2 ∧
    s.pbits = some 2 ∧ s.lbits = some 2 ∧ s.ghr = some 2 ∧
    (2#32).toNat = (2#32).toNat % 2 ^ (2#6).toNat ∧
    (1#32).toNat = (5#32).toNat % 2 ^ (2#6).toNat ∧ entryAt s.lht (1#32).toNat = some 3 ∧
    (3#32).toNat = (3#32).toNat % 2 ^ (2#6).toNat ∧ entryAt s.tmeta (2#32).toNat = some 2 ∧
    entryAt s.tlpt (3#32).toNat = some 3 ∧ entryAt s.tgpt (2#32).toNat = some 0 := by decide

/-- With the local predictor right alone or wrong alone, and with the two agreeing. -/
theorem wit_TournamentTrain :
    (let s := tournament true
     s.initDone = true ∧ s.pending = true ∧ s.mode = some (modeValue .TOURNAMENT) ∧ s.gbits = some 2 ∧
     s.lbits = some 2 ∧ s.ghr = some 2 ∧ s.tokGidx = some 2 ∧ s.tokPidx = some 1 ∧
     s.tokLidx = some 3 ∧ s.tokGpred = some false ∧ s.tokLpred = some true ∧
     entryAt s.tgpt (2#32).toNat = some 0 ∧ entryAt s.tlpt (3#32).toNat = some 3 ∧
     entryAt s.tmeta (2#32).toNat = some 2 ∧ entryAt s.lht (1#32).toNat = some 3) ∧
    (let s := agreeing true
     s.initDone = true ∧ s.pending = true ∧ s.mode = some (modeValue .TOURNAMENT) ∧ s.gbits = some 1 ∧
     s.lbits = some 1 ∧ s.ghr = some 0 ∧ s.tokGidx = some 0 ∧ s.tokPidx = some 0 ∧
     s.tokLidx = some 0 ∧ s.tokGpred = some true ∧ s.tokLpred = some true ∧
     entryAt s.tgpt (0#32).toNat = some 3 ∧ entryAt s.tlpt (0#32).toNat = some 2 ∧
     entryAt s.tmeta (0#32).toNat = some 0 ∧ entryAt s.lht (0#32).toNat = some 0) := by decide

theorem wit_MetaTieBreak :
    (agreeing true).tokLpred = (agreeing true).tokGpred ∧
    (∃ t, exec (.train true) (agreeing true) = .next t) ∧
    ∃ t, exec (.train false) (agreeing true) = .next t := ⟨by decide, ⟨_, rfl⟩, ⟨_, rfl⟩⟩

theorem wit_CustomPredict :
    let s := custom 17 1 [] [(0, [-4, 2])] none
    s.initDone = true ∧ s.pending = false ∧ s.mode = some (modeValue .CUSTOM) ∧ s.gbits = some 2 ∧
    s.pbits = some 1 ∧ s.ghr = some 1 ∧ (0#32).toNat = (2#32).toNat % 2 ^ (1#6).toNat ∧
    entryAt s.pbias (0#32).toNat = some 1 ∧ entryAt s.pw (0#32).toNat = some [-4, 2] ∧
    ([-4, 2] : List Weight).length = (2#6).toNat := by decide

/-- The gate closed just above THETA and open at it, outcome correct. -/
theorem wit_CustomTrain :
    [18#32, 17#32].all (fun x =>
      let s := custom 17 0 [] [] (some x)
      s.initDone = true ∧ s.pending = true ∧ s.mode = some (modeValue .CUSTOM) ∧ s.gbits = some 2 ∧
      s.ghr = some 0 ∧ s.theta = some 17 ∧ s.tokPidx = some 0 ∧ s.tokSum = some x ∧
      entryAt s.pbias (0#32).toNat = some 1 ∧ entryAt s.pw (0#32).toNat = some [0, 0] ∧
      ([0, 0] : List Weight).length = (2#6).toNat) = true ∧
    (decide (0 ≤ (18#32 : SumWord).toInt) = true ∧ 17 < ((18#32 : SumWord).toInt.natAbs : Int)) ∧
    ¬ (decide (0 ≤ (17#32 : SumWord).toInt) = true ∧ 17 < ((17#32 : SumWord).toInt.natAbs : Int)) := by
  decide

/-! ### Witnesses: completion, invariants, whole-machine claims -/

theorem wit_PredictCompletes :
    BlockInv (static false) ∧ BlockInv (unrecognized 4 false) ∧ BlockInv (gshare false) ∧
    BlockInv (gshare32 false) ∧ BlockInv (tournament false) ∧
    BlockInv (custom 17 1 [] [(0, [-4, 2])] none) ∧ (gshare false).initDone = true ∧
    (gshare false).pending = false := by decide

theorem wit_TrainCompletes :
    BlockInv (static true) ∧ BlockInv (unrecognized 4 true) ∧ BlockInv (gshare true) ∧
    BlockInv (tournament true) ∧ BlockInv (custom 17 1 [] [(0, [-4, 2])] (some (-5))) ∧
    (gshare true).initDone = true ∧ (gshare true).pending = true ∧ (gshare true).gbits = some 3 := by
  decide

theorem wit_FirstPrediction :
    State.reset.initDone = false ∧ 1 ≤ (1#6).toNat ∧ (1#6).toNat ≤ 32 ∧ 1 ≤ (32#6).toNat ∧
    (32#6).toNat ≤ 32 := by decide

theorem wit_StepKeepsInvariant :
    BlockInv (given (tournament true) 7#64) ∧
    ∃ t, step (given (tournament true) 7#64) = .next t ∧ t ≠ given (tournament true) 7#64 :=
  ⟨by decide, _, rfl, by decide⟩

theorem wit_StepNeverStops :
    BlockInv State.reset ∧ BlockInv (given (custom 17 0 [] [] (some 1)) 3#64) := by decide

theorem wit_StepKeepsTokenFresh :
    TokenFresh (given (tournament false) 0x0000000500000002#64) ∧
    ∃ t, step (given (tournament false) 0x0000000500000002#64) = .next t ∧ t.pending = true :=
  ⟨by decide, _, rfl, by decide⟩

theorem wit_StepKeepsTablesCanonical :
    Memory.wf (given (gshare32 true) 3#64) ∧
    ∃ t, step (given (gshare32 true) 3#64) = .next t ∧ t.gpht = some (Table.filled 32 1) :=
  ⟨by decide, _, rfl, by decide⟩

theorem wit_AlternationEndsWell :
    let bs := [(5#32, true), (0xFFFFFFFF#32, false)]
    let s := { tournament false with inputs := branchInputs bs }
    BlockInv s ∧ s.initDone = true ∧ s.pending = false ∧ s.fault = 0#3 ∧
    s.inputs = branchInputs bs := by decide

/-- Width 3: the pcs differ in bit 3 only, and width 2 in the tournament. -/
theorem wit_HighPcBitsHaveNoEffect :
    (((gshare false).mode = some (modeValue .GSHARE) ∧ (gshare false).gbits = some 3) ∧
      (6#32).toNat % 2 ^ (3#6).toNat = (14#32).toNat % 2 ^ (3#6).toNat) ∧
    ((tournament false).mode = some (modeValue .TOURNAMENT) ∧ (tournament false).pbits = some 2) ∧
    (5#32).toNat % 2 ^ (2#6).toNat = (1#32).toNat % 2 ^ (2#6).toNat := by decide

end Sys2Proof.Tests.Slice0
end

namespace Sys2Proof.Machine

/-! ### Steps, reset, faults: the proofs -/

/-- The block takes the word at the head of the port off it and performs it whole (R14). -/
theorem step_of_command {s : State} {w : CommandWord} {rest : List Input}
    (h : s.inputs = .command w :: rest) : step s = perform w (s.withInputs rest) := by
  simp only [step, h]

/-- Settles O9: taking the word off the port leaves FAULT as it was, so the word is performed in an
unfaulted block. -/
theorem stepRunsDecodedCommand : Obligations.StepRunsDecodedCommand := by
  intro s w rest i hin hf hd
  calc step s
    _ = perform w (s.withInputs rest) := step_of_command hin
    _ = exec i (s.withInputs rest) := perform_of_decode ((s.withInputs_fault rest).trans hf) hd

end Sys2Proof.Machine

namespace Sys2Proof.Machine

/-! ### Shaped tables: what a read gives, and writes through the element -/

section
variable {α : Type}

/-- An entry that reads is in its range. -/
theorem entryAt_shaped_ok {o : Option (Table α)} {n : Nat} {fill : α} {ok : α → Prop}
    (h : ∃ t ∈ o, t.Shaped n fill ok) (hf : ok fill) {i : Nat} {v : α}
    (hv : entryAt o i = some v) : ok v := by
  obtain ⟨u, rfl, hr⟩ := entryAt_eq_some.1 hv
  obtain ⟨_, ⟨⟩, hs⟩ := h
  obtain ⟨v', hv', hok⟩ := hs.read hf (hs.1 ▸ Table.read_lt hr)
  cases hr.symm.trans hv'
  exact hok

theorem tableWrite_shaped [DecidableEq α] {e : Element} {o : Option (Table α)} {i : U32} {v : α}
    {t' : Table α} {n : Nat} {fill : α} {ok : α → Prop} (h : ∃ t ∈ o, t.Shaped n fill ok)
    (hv : ok v) (hw : tableWrite e o i v = .ok t') : t'.Shaped n fill ok := by
  obtain ⟨u, rfl, hw'⟩ := tableWrite_eq_ok hw
  obtain ⟨_, ⟨⟩, hs⟩ := h
  exact hs.write hv hw'

theorem tableWrite_completes [DecidableEq α] (e : Element) {o : Option (Table α)} {i : U32}
    {n : Nat} {fill : α} {ok : α → Prop} (h : ∃ t ∈ o, t.Shaped n fill ok) (hi : i.toNat < 2 ^ n)
    (v : α) :
    ∃ t', tableWrite e o i v = .ok t' := by
  obtain ⟨_, ⟨⟩, hs⟩ := h
  obtain ⟨t', ht', -⟩ := tableWrite_spec (e := e) v (hs.1.symm ▸ hi)
  exact ⟨t', ht'⟩

end

/-- The meta table is either left as it is or trained at one entry (R141, R142). -/
theorem metaTrain_shaped {o : Option (Table Counter)} {gi : U32} {lp gp t : Bit}
    {t' : Table Counter} {n : Nat} (h : ∃ u ∈ o, CounterTable n u)
    (hw : metaTrain o gi lp gp t = .ok t') : CounterTable n t' := by
  by_cases hd : lp = gp
  · subst hd
    rw [metaTrain_agree, need_eq_ok] at hw
    subst hw
    obtain ⟨_, ⟨⟩, hs⟩ := h
    exact hs
  · rw [metaTrain_differ hd] at hw
    exact sctTrain_shaped h hw

theorem metaTrain_completes {o : Option (Table Counter)} {gi : U32} (lp gp t : Bit) {n : Nat}
    (h : ∃ u ∈ o, CounterTable n u) (hi : gi.toNat < 2 ^ n) :
    ∃ t', metaTrain o gi lp gp t = .ok t' := by
  by_cases hd : lp = gp
  · subst hd
    obtain ⟨u, rfl, -⟩ := h
    exact ⟨u, metaTrain_agree lp t⟩
  · rw [metaTrain_differ hd]
    exact sctTrain_completes _ _ h hi

/-! ### The ranges INIT's values are in -/

theorem historyInit_le_mask (n : Nat) : historyInit.toNat ≤ mask n := Nat.zero_le _

theorem biasInit_inBound : inBound biasInit := by decide

theorem weightRow_init (g : Nat) : (List.replicate g weightInit).length = g ∧
    ∀ w ∈ List.replicate g weightInit, inBound w := by
  refine ⟨List.length_replicate, fun w hw => ?_⟩
  rw [List.eq_of_mem_replicate hw]
  decide

/-- A width INIT takes has an entry of `THETA_FN` (R9, R22). -/
theorem thetaFn_isSome (f : ThetaFn) {g : Nat} (hg : g ≤ 32) : f[g]?.isSome = true := by
  rw [Vector.getElem?_eq_getElem (by omega)]
  rfl

/-! ### The perceptron's sum is in range (R173) -/

theorem percSumFrom_abs_le (h : U32) {ws : List Weight} (hb : ∀ w ∈ ws, inBound w) (i : Nat)
    (sum : Int) : |percSumFrom h i sum ws| ≤ |sum| + 127 * ws.length := by
  induction ws generalizing i sum with
  | nil => simp [percSumFrom]
  | cons w ws ih =>
    obtain ⟨hlo, hhi⟩ := (inBound_iff w).1 (hb w (List.mem_cons_self ..))
    have hw : |w.toInt| ≤ 127 := abs_le.2 ⟨hlo, hhi⟩
    have hstep : |if histBit h i then sum + w.toInt else sum - w.toInt| ≤ |sum| + 127 := by
      split
      · exact (abs_add_le sum w.toInt).trans (by omega)
      · exact (abs_sub sum w.toInt).trans (by omega)
    calc |percSumFrom h i sum (w :: ws)|
      _ ≤ |if histBit h i then sum + w.toInt else sum - w.toInt| + 127 * ws.length :=
        ih (fun x hx => hb x (List.mem_cons_of_mem _ hx)) _ _
      _ ≤ |sum| + 127 * (w :: ws).length := by
        rw [List.length_cons]
        omega

/-- The bound of R173, for a bias and a row in range. -/
theorem percSum_abs_le {bias : Weight} (hbias : inBound bias) {ws : List Weight}
    (hb : ∀ w ∈ ws, inBound w) (h : U32) :
    |percSum bias ws h| ≤ 127 * ((ws.length : Int) + 1) := by
  have hsum := percSumFrom_abs_le h hb 0 bias.toInt
  have hb' : |bias.toInt| ≤ 127 := abs_le.2 ((inBound_iff bias).1 hbias)
  rw [percSum]
  omega

/-- TOK_SUM holds the sum of at most 32 lanes without loss (R173). -/
theorem percSum_toInt {bias : Weight} (hbias : inBound bias) {ws : List Weight}
    (hb : ∀ w ∈ ws, inBound w) (hlen : ws.length ≤ 32) (h : U32) :
    (BitVec.ofInt 32 (percSum bias ws h)).toInt = percSum bias ws h := by
  have hle := percSum_abs_le hbias hb h
  rw [abs_le] at hle
  exact BitVec.toInt_ofInt_eq_self (by decide) (by norm_num; omega) (by norm_num; omega)

/-! ### The invariant, mode by mode -/

section
variable {g p l : Nat} {s : State}

@[simp] theorem ModeState_static : ModeState .static g p l s ↔ TablelessState s := by
  simp [ModeState]

@[simp] theorem ModeState_unrecognized :
    ModeState .unrecognized g p l s ↔ TablelessState s := by simp [ModeState]

@[simp] theorem ModeState_gshare : ModeState .gshare g p l s ↔ GshareState g s := by
  simp [ModeState]

@[simp] theorem ModeState_tournament :
    ModeState .tournament g p l s ↔ TournamentState g p l s := by simp [ModeState]

@[simp] theorem ModeState_custom : ModeState .custom g p l s ↔ CustomState g p s := by
  simp [ModeState]

end

@[simp] theorem TablelessState_setPending {s : State} {b : Bit} :
    TablelessState (s.setPending b) ↔ TablelessState s := Iff.rfl

@[simp] theorem TablelessState_respond {s : State} {b : Bit} :
    TablelessState (s.respond b) ↔ TablelessState s := Iff.rfl

/-- A command that leaves the configuration and the flag keeps an initialized block's invariant
once it keeps the active mode's state. -/
theorem Running.of_same_config {s t : State} (h : Running s) (hmode : t.mode = s.mode)
    (hgbits : t.gbits = s.gbits) (hpbits : t.pbits = s.pbits) (hlbits : t.lbits = s.lbits)
    (hkeep : ∀ (m : U32) (g p l : U6), s.mode = some m → s.gbits = some g → s.pbits = some p →
      s.lbits = some l → g.toNat ≤ 32 → l.toNat ≤ 32 →
      ModeState (modeOf m) g.toNat p.toNat l.toNat s →
      ModeState (modeOf m) g.toNat p.toNat l.toNat t) : Running t := by
  obtain ⟨m, g, p, l, hm, hg, hp, hl, wg, wp, wl, hs⟩ := Running_iff.1 h
  have hs' := hkeep m g p l hm hg hp hl ((legalWidth_iff g).1 wg).2 ((legalWidth_iff l).1 wl).2 hs
  exact Running_iff.2 ⟨m, g, p, l, hmode.trans hm, hgbits.trans hg, hpbits.trans hp,
    hlbits.trans hl, wg, wp, wl, hs'⟩

/-! ### INIT makes the active mode's state (R35, R202) -/

theorem initState_modeState {s : State} (h : TablelessState s) (mode : U32) {g : U6} (p l : U6)
    (hg : g.toNat ≤ 32) :
    ModeState (modeOf mode) g.toNat p.toNat l.toNat
      ({ initState mode g p l s with initDone := true }.setPending false) := by
  have hghr : Holds (some historyInit) fun h => decide (h.toNat ≤ mask g.toNat) :=
    Holds_iff.2 ⟨_, rfl, decide_eq_true (historyInit_le_mask _)⟩
  obtain ⟨hgh, hgp, hnt, hnc, hgi, hpi, hloc, hsum⟩ := h
  unfold initState
  cases modeOf mode
  case static => exact ModeState_static.2 ⟨hgh, hgp, hnt, hnc, hgi, hpi, hloc, hsum⟩
  case unrecognized => exact ModeState_unrecognized.2 ⟨hgh, hgp, hnt, hnc, hgi, hpi, hloc, hsum⟩
  case gshare =>
    exact ModeState_gshare.2 ⟨hghr, ⟨_, rfl, Table.filled_shaped _ _ _⟩, hnt, hnc, hpi, hloc, hsum,
      fun hp => Bool.noConfusion hp⟩
  case tournament =>
    exact ModeState_tournament.2 ⟨hghr, hgp, hnc, hsum, ⟨_, rfl, Table.filled_shaped _ _ _⟩,
      ⟨_, rfl, Table.filled_shaped _ _ _⟩, ⟨_, rfl, Table.filled_shaped _ _ _⟩,
      ⟨_, rfl, Table.filled_shaped _ _ _⟩, fun hp => Bool.noConfusion hp⟩
  case custom =>
    exact ModeState_custom.2 ⟨hghr, hgp, hnt, hgi, hloc, thetaFn_isSome s.thetaFn hg, rfl,
      ⟨_, rfl, Table.filled_shaped _ _ _⟩, ⟨_, rfl, Table.filled_shaped _ _ _⟩,
      fun hp => Bool.noConfusion hp⟩

/-! ### PREDICT leaves the active mode's state, with its token in range (R37.5) -/

theorem gsharePredict_keeps {pc : U32} {s u : State} {g : U6} (hg : s.gbits = some g)
    (h : GshareState g.toNat s) (hu : gsharePredict pc s = .ok u) :
    GshareState g.toNat (u.setPending true) := by
  obtain ⟨hgh, ht, hnt, hnc, hpi, hloc, hsum, -⟩ := h
  obtain ⟨g', h', c, hg', -, -, rfl⟩ := gsharePredict_eq_ok.1 hu
  cases hg.symm.trans hg'
  exact ⟨hgh, ht, hnt, hnc, hpi, hloc, hsum,
    fun _ => IndexIn_iff.2 ⟨_, rfl, idx_xor_lt h' pc g.toNat⟩⟩

theorem tournamentPredict_keeps {pc : U32} {s u : State} {g p l : U6} (hg : s.gbits = some g)
    (hp : s.pbits = some p) (hl : s.lbits = some l)
    (h : TournamentState g.toNat p.toNat l.toNat s) (hu : tournamentPredict pc s = .ok u) :
    TournamentState g.toNat p.toNat l.toNat (u.setPending true) := by
  obtain ⟨hgh, hgp, hnc, hsum, htg, htl, htm, hlht, -⟩ := h
  obtain ⟨g', p', l', h', cm, lh, cl, cg, hg', hp', hl', -, -, -, -, -, rfl⟩ :=
    tournamentPredict_eq_ok.1 hu
  cases hg.symm.trans hg'
  cases hp.symm.trans hp'
  cases hl.symm.trans hl'
  exact ⟨hgh, hgp, hnc, hsum, htg, htl, htm, hlht, fun _ =>
    ⟨IndexIn_iff.2 ⟨_, rfl, idx_lt h' g.toNat⟩, IndexIn_iff.2 ⟨_, rfl, idx_lt pc p.toNat⟩,
      IndexIn_iff.2 ⟨_, rfl, idx_lt lh l.toNat⟩, rfl, rfl⟩⟩

theorem customPredict_keeps {pc : U32} {s u : State} {g p : U6} (hg : s.gbits = some g)
    (hp : s.pbits = some p) (hg32 : g.toNat ≤ 32) (h : CustomState g.toNat p.toNat s)
    (hu : customPredict pc s = .ok u) : CustomState g.toNat p.toNat (u.setPending true) := by
  obtain ⟨hgh, hgp, hnt, hgi, hloc, hth, htheta, hbias, hw, -⟩ := h
  obtain ⟨g', p', h', bias, ws, hg', hp', -, hb, hws, hlen, rfl⟩ := customPredict_eq_ok.1 hu
  cases hg.symm.trans hg'
  cases hp.symm.trans hp'
  have hbok : inBound bias := entryAt_shaped_ok hbias biasInit_inBound hb
  have hwok : ∀ w ∈ ws, inBound w := (entryAt_shaped_ok hw (weightRow_init g.toNat) hws).2
  have hsum : ((percSum bias ws h').natAbs : Int) ≤ weightBound * (g.toNat + 1) := by
    rw [Int.natCast_natAbs, ← hlen]
    exact percSum_abs_le hbok hwok h'
  refine ⟨hgh, hgp, hnt, hgi, hloc, hth, htheta, hbias, hw, fun _ =>
    ⟨IndexIn_iff.2 ⟨_, rfl, idx_lt pc p.toNat⟩, Holds_iff.2 ⟨_, rfl, ?_⟩⟩⟩
  rw [percSum_toInt hbok hwok (hlen ▸ hg32) h', decide_eq_true_eq]
  exact hsum

theorem predictIn_keeps {m : Mode} {pc : U32} {s u : State} {g p l : U6} (hg : s.gbits = some g)
    (hp : s.pbits = some p) (hl : s.lbits = some l) (hg32 : g.toNat ≤ 32)
    (h : ModeState m g.toNat p.toNat l.toNat s) (hu : predictIn m pc s = .ok u) :
    ModeState m g.toNat p.toNat l.toNat (u.setPending true) := by
  cases m
  case static =>
    cases hu
    simpa using h
  case gshare => exact ModeState_gshare.2 (gsharePredict_keeps hg (ModeState_gshare.1 h) hu)
  case tournament =>
    exact ModeState_tournament.2 (tournamentPredict_keeps hg hp hl (ModeState_tournament.1 h) hu)
  case custom =>
    exact ModeState_custom.2 (customPredict_keeps hg hp hg32 (ModeState_custom.1 h) hu)
  case unrecognized =>
    cases hu
    simpa using h

/-! ### TRAIN leaves the active mode's state (R37) -/

theorem gshareTrain_keeps {o : Bit} {s u : State} {g : U6} (hg : s.gbits = some g)
    (hg32 : g.toNat ≤ 32) (h : GshareState g.toNat s) (hu : gshareTrain o s = .ok u) :
    GshareState g.toNat (u.setPending false) := by
  obtain ⟨-, ht, hnt, hnc, hpi, hloc, hsum, -⟩ := h
  obtain ⟨g', h', i, v, hg', -, -, hv, rfl⟩ := gshareTrain_eq_ok.1 hu
  cases hg.symm.trans hg'
  exact ⟨HistoryIn_iff.2 ⟨_, rfl, histShift_lt h' o hg32⟩, ⟨v, rfl, sctTrain_shaped ht hv⟩, hnt,
    hnc, hpi, hloc, hsum, fun hp => Bool.noConfusion hp⟩

theorem tournamentTrain_keeps {o : Bit} {s u : State} {g p l : U6} (hg : s.gbits = some g)
    (hl : s.lbits = some l) (hg32 : g.toNat ≤ 32) (hl32 : l.toNat ≤ 32)
    (h : TournamentState g.toNat p.toNat l.toNat s) (hu : tournamentTrain o s = .ok u) :
    TournamentState g.toNat p.toNat l.toNat (u.setPending false) := by
  obtain ⟨-, hgp, hnc, hsum, htg, htl, htm, hlht, -⟩ := h
  obtain ⟨g', l', h', gi, pi, li, gp, lp, tg, tl, tm, lh, lt, hg', hl', -, -, -, -, -, -, wtg, wtl,
    wtm, -, wlt, rfl⟩ := tournamentTrain_eq_ok.1 hu
  cases hg.symm.trans hg'
  cases hl.symm.trans hl'
  have hlh : (histShift lh o l.toNat).toNat ≤ mask l.toNat :=
    (le_mask_iff _ _).2 (histShift_lt lh o hl32)
  exact ⟨HistoryIn_iff.2 ⟨_, rfl, histShift_lt h' o hg32⟩, hgp, hnc, hsum,
    ⟨tg, rfl, sctTrain_shaped htg wtg⟩, ⟨tl, rfl, sctTrain_shaped htl wtl⟩,
    ⟨tm, rfl, metaTrain_shaped htm wtm⟩, ⟨lt, rfl, tableWrite_shaped hlht hlh wlt⟩,
    fun hp => Bool.noConfusion hp⟩

/-- The update behind the gate keeps every bias and weight in range (R37.4). -/
theorem customUpdate_keeps {b h : U32} {g p : Nat} {o : Bit} {s u : State}
    (hbias : ∃ t ∈ s.pbias, BiasTable p t) (hw : ∃ t ∈ s.pw, WeightTable g p t)
    (hu : customUpdate b h g o s = .ok u) :
    ∃ tb tw, BiasTable p tb ∧ WeightTable g p tw ∧
      u = { s with pbias := some tb, pw := some tw } := by
  obtain ⟨bias, tb, ws, tw, hb, wtb, hws, hlen, wtw, rfl⟩ := customUpdate_eq_ok.1 hu
  have hbok : inBound bias := entryAt_shaped_ok hbias biasInit_inBound hb
  have hwok : ∀ w ∈ ws, inBound w := (entryAt_shaped_ok hw (weightRow_init g) hws).2
  exact ⟨tb, tw, tableWrite_shaped hbias (wStep_inBound o hbok) wtb,
    tableWrite_shaped hw ⟨(trainLanes_length h o ws).trans hlen, trainLanes_inBound h o hwok⟩ wtw,
    rfl⟩

theorem customTrain_keeps {o : Bit} {s u : State} {g p : U6} (hg : s.gbits = some g)
    (hg32 : g.toNat ≤ 32) (h : CustomState g.toNat p.toNat s) (hu : customTrain o s = .ok u) :
    CustomState g.toNat p.toNat (u.setPending false) := by
  obtain ⟨-, hgp, hnt, hgi, hloc, hth, htheta, hbias, hw, -⟩ := h
  obtain ⟨g', h', th, b, x, hg', -, -, -, -, hgate⟩ := customTrain_eq_ok.1 hu
  cases hg.symm.trans hg'
  have hghr : Holds (some (histShift h' o g.toNat)) fun y => decide (y.toNat ≤ mask g.toNat) :=
    Holds_iff.2 ⟨_, rfl, decide_eq_true ((le_mask_iff _ _).2 (histShift_lt h' o hg32))⟩
  rcases hgate with ⟨-, rfl⟩ | ⟨-, v, hv, rfl⟩
  · exact ⟨hghr, hgp, hnt, hgi, hloc, hth, htheta, hbias, hw, fun hp => Bool.noConfusion hp⟩
  · obtain ⟨tb, tw, htb, htw, rfl⟩ := customUpdate_keeps hbias hw hv
    exact ⟨hghr, hgp, hnt, hgi, hloc, hth, htheta, ⟨tb, rfl, htb⟩, ⟨tw, rfl, htw⟩,
      fun hp => Bool.noConfusion hp⟩

theorem trainIn_keeps {m : Mode} {o : Bit} {s u : State} {g p l : U6} (hg : s.gbits = some g)
    (hl : s.lbits = some l) (hg32 : g.toNat ≤ 32) (hl32 : l.toNat ≤ 32)
    (h : ModeState m g.toNat p.toNat l.toNat s) (hu : trainIn m o s = .ok u) :
    ModeState m g.toNat p.toNat l.toNat (u.setPending false) := by
  cases m
  case static =>
    cases hu
    simpa using h
  case gshare => exact ModeState_gshare.2 (gshareTrain_keeps hg hg32 (ModeState_gshare.1 h) hu)
  case tournament =>
    exact ModeState_tournament.2
      (tournamentTrain_keeps hg hl hg32 hl32 (ModeState_tournament.1 h) hu)
  case custom => exact ModeState_custom.2 (customTrain_keeps hg hg32 (ModeState_custom.1 h) hu)
  case unrecognized =>
    cases hu
    simpa using h

/-! ### The whole invariant under each thing a step can do -/

/-- Taking inputs off the port is no part of the invariant. -/
theorem BlockInv_withInputs {s : State} {rest : List Input} :
    BlockInv (s.withInputs rest) ↔ BlockInv s := Iff.rfl

theorem faultBits_ne_seven (k : FaultCode) : faultBits k ≠ 7#3 := by cases k <;> decide

/-- A fault changes FAULT alone, and never to 7 (R25, R231). -/
theorem BlockInv.raise {s : State} (h : BlockInv s) (k : FaultCode) : BlockInv (s.raise k) := by
  obtain ⟨-, hun, hrun⟩ := h
  exact ⟨faultBits_ne_seven k, hun, hrun⟩

theorem blockInv_takeReset (s : State) (rest : List Input) : BlockInv (s.takeReset rest) :=
  ⟨by simp,
    fun _ => by simp [Uninitialized, TablelessState, NoTournament, NoCustom, NoLocalToken], by simp⟩

/-- What `BlockInv` asks of an initialized block. -/
theorem blockInv_of_running {s : State} (hf : s.fault ≠ 7#3) (hi : s.initDone = true)
    (hr : Running s) : BlockInv s :=
  ⟨hf, fun hn => absurd (hi.symm.trans hn) (by decide), fun _ => hr⟩

theorem BlockInv.init {s : State} (h : BlockInv s) (hi : s.initDone = false) (mode : U32)
    {g p l : U6} (hg : legalWidth g = true) (hp : legalWidth p = true) (hl : legalWidth l = true) :
    BlockInv ({ initState mode g p l s with initDone := true }.setPending false) := by
  obtain ⟨hf, hun, -⟩ := h
  obtain ⟨-, -, -, -, -, htab⟩ := hun hi
  have hframe := initState_frame mode g p l s
  have hmode := initState_modeState htab mode p l ((legalWidth_iff g).1 hg).2
  refine blockInv_of_running ((congrArg State.fault hframe).trans_ne hf) rfl
    (Running_iff.2 ⟨mode, g, p, l, ?_, ?_, ?_, ?_, hg, hp, hl, hmode⟩)
  · exact congrArg State.mode hframe
  · exact congrArg State.gbits hframe
  · exact congrArg State.pbits hframe
  · exact congrArg State.lbits hframe

theorem BlockInv.predict {s u : State} {pc m : U32} (h : BlockInv s) (hi : s.initDone = true)
    (hm : s.mode = some m) (hu : predictIn (modeOf m) pc s = .ok u) :
    BlockInv (u.setPending true) := by
  obtain ⟨hf, -, hrun⟩ := h
  obtain ⟨b, hframe⟩ := predictIn_frame hu
  refine blockInv_of_running ((congrArg State.fault hframe).trans_ne hf)
    ((congrArg State.initDone hframe).trans hi)
    ((hrun hi).of_same_config (congrArg State.mode hframe :) (congrArg State.gbits hframe :)
      (congrArg State.pbits hframe :) (congrArg State.lbits hframe :) ?_)
  intro m' g p l hm' hg hp hl hg32 _ hs
  cases hm.symm.trans hm'
  exact predictIn_keeps hg hp hl hg32 hs hu

theorem BlockInv.train {s u : State} {o : Bit} {m : U32} (h : BlockInv s) (hi : s.initDone = true)
    (hm : s.mode = some m) (hu : trainIn (modeOf m) o s = .ok u) :
    BlockInv (u.setPending false) := by
  obtain ⟨hf, -, hrun⟩ := h
  have hframe := trainIn_frame hu
  refine blockInv_of_running ((congrArg State.fault hframe).trans_ne hf)
    ((congrArg State.initDone hframe).trans hi)
    ((hrun hi).of_same_config (congrArg State.mode hframe :) (congrArg State.gbits hframe :)
      (congrArg State.pbits hframe :) (congrArg State.lbits hframe :) ?_)
  intro m' g p l hm' hg _ hl hg32 hl32 hs
  cases hm.symm.trans hm'
  exact trainIn_keeps hg hl hg32 hl32 hs hu

/-- Settles O53: each thing a step can do keeps the invariant, by the mode's own lemma where it
writes tables, history or the token. -/
theorem stepKeepsInvariant : Obligations.StepKeepsInvariant := by
  intro s t h hs
  rcases step_eq_next.1 hs with ⟨-, rfl⟩ | ⟨rest, -, rfl⟩ | ⟨w, rest, hin, -⟩
  · exact h
  · exact blockInv_takeReset s rest
  · have h' : BlockInv (s.withInputs rest) := BlockInv_withInputs.2 h
    rcases command_step_cases hin hs with ⟨-, rfl⟩ | ⟨-, k, rfl⟩ |
      ⟨-, hi, mode, g, p, l, -, hg, hp, hl, rfl⟩ | ⟨-, hi, -, pc, m, u, -, hm, hu, rfl⟩ |
      ⟨-, hi, -, o, m, u, -, hm, hu, rfl⟩
    · exact h'
    · exact h'.raise k
    · exact h'.init hi mode hg hp hl
    · exact h'.predict hi hm hu
    · exact h'.train hi hm hu

/-! ### Every command completes from the invariant (R42, R53) -/

theorem gsharePredict_completes (pc : U32) {s : State} {g : U6} (hg : s.gbits = some g)
    (h : GshareState g.toNat s) : ∃ u, gsharePredict pc s = .ok u := by
  obtain ⟨hgh, ht, -⟩ := h
  obtain ⟨x, hx, -⟩ := HistoryIn_iff.1 hgh
  obtain ⟨c, hc, -⟩ := entryAt_shaped ht trivial (idx_xor_lt x pc g.toNat)
  exact ⟨_, gsharePredict_eq_ok.2 ⟨g, x, c, hg, hx, hc, rfl⟩⟩

theorem tournamentPredict_completes (pc : U32) {s : State} {g p l : U6} (hg : s.gbits = some g)
    (hp : s.pbits = some p) (hl : s.lbits = some l)
    (h : TournamentState g.toNat p.toNat l.toNat s) : ∃ u, tournamentPredict pc s = .ok u := by
  obtain ⟨hgh, -, -, -, htg, htl, htm, hlht, -⟩ := h
  obtain ⟨x, hx, -⟩ := HistoryIn_iff.1 hgh
  obtain ⟨cm, hcm, -⟩ := entryAt_shaped htm trivial (idx_lt x g.toNat)
  obtain ⟨lh, hlh, -⟩ := entryAt_shaped hlht (historyInit_le_mask _) (idx_lt pc p.toNat)
  obtain ⟨cl, hcl, -⟩ := entryAt_shaped htl trivial (idx_lt lh l.toNat)
  obtain ⟨cg, hcg, -⟩ := entryAt_shaped htg trivial (idx_lt x g.toNat)
  exact ⟨_, tournamentPredict_eq_ok.2
    ⟨g, p, l, x, cm, lh, cl, cg, hg, hp, hl, hx, hcm, hlh, hcl, hcg, rfl⟩⟩

theorem customPredict_completes (pc : U32) {s : State} {g p : U6} (hg : s.gbits = some g)
    (hp : s.pbits = some p) (h : CustomState g.toNat p.toNat s) :
    ∃ u, customPredict pc s = .ok u := by
  obtain ⟨hgh, -, -, -, -, -, -, hbias, hw, -⟩ := h
  obtain ⟨x, hx, -⟩ := HistoryIn_iff.1 hgh
  obtain ⟨bias, hb, -⟩ := entryAt_shaped hbias biasInit_inBound (idx_lt pc p.toNat)
  obtain ⟨ws, hws, hlen, -⟩ := entryAt_shaped hw (weightRow_init g.toNat) (idx_lt pc p.toNat)
  exact ⟨_, customPredict_eq_ok.2 ⟨g, p, x, bias, ws, hg, hp, hx, hb, hws, hlen, rfl⟩⟩

theorem predictIn_completes {m : Mode} (pc : U32) {s : State} {g p l : U6} (hg : s.gbits = some g)
    (hp : s.pbits = some p) (hl : s.lbits = some l)
    (h : ModeState m g.toNat p.toNat l.toNat s) : ∃ u, predictIn m pc s = .ok u := by
  cases m
  case static => exact ⟨_, rfl⟩
  case gshare => exact gsharePredict_completes pc hg (ModeState_gshare.1 h)
  case tournament => exact tournamentPredict_completes pc hg hp hl (ModeState_tournament.1 h)
  case custom => exact customPredict_completes pc hg hp (ModeState_custom.1 h)
  case unrecognized => exact ⟨_, rfl⟩

theorem gshareTrain_completes (o : Bit) {s : State} {g : U6} (hg : s.gbits = some g)
    (hpend : s.pending = true) (h : GshareState g.toNat s) : ∃ u, gshareTrain o s = .ok u := by
  obtain ⟨hgh, ht, -, -, -, -, -, htok⟩ := h
  obtain ⟨x, hx, -⟩ := HistoryIn_iff.1 hgh
  obtain ⟨i, hi, hir⟩ := IndexIn_iff.1 (htok hpend)
  obtain ⟨v, hv⟩ := sctTrain_completes .GPHT o ht hir
  exact ⟨_, gshareTrain_eq_ok.2 ⟨g, x, i, v, hg, hx, hi, hv, rfl⟩⟩

theorem tournamentTrain_completes (o : Bit) {s : State} {g p l : U6} (hg : s.gbits = some g)
    (hl : s.lbits = some l) (hpend : s.pending = true)
    (h : TournamentState g.toNat p.toNat l.toNat s) : ∃ u, tournamentTrain o s = .ok u := by
  obtain ⟨hgh, -, -, -, htg, htl, htm, hlht, htok⟩ := h
  obtain ⟨hgi, hpi, hli, hgp, hlp⟩ := htok hpend
  obtain ⟨x, hx, -⟩ := HistoryIn_iff.1 hgh
  obtain ⟨gi, hgi, hgir⟩ := IndexIn_iff.1 hgi
  obtain ⟨pi, hpi, hpir⟩ := IndexIn_iff.1 hpi
  obtain ⟨li, hli, hlir⟩ := IndexIn_iff.1 hli
  obtain ⟨gp, hgp⟩ := Option.isSome_iff_exists.1 hgp
  obtain ⟨lp, hlp⟩ := Option.isSome_iff_exists.1 hlp
  obtain ⟨tg, htg⟩ := sctTrain_completes .TGPT o htg hgir
  obtain ⟨tl, htl⟩ := sctTrain_completes .TLPT o htl hlir
  obtain ⟨tm, htm⟩ := metaTrain_completes lp gp o htm hgir
  obtain ⟨lh, hlh, -⟩ := entryAt_shaped hlht (historyInit_le_mask _) hpir
  obtain ⟨lt, hlt⟩ := tableWrite_completes .LHT hlht hpir (histShift lh o l.toNat)
  exact ⟨_, tournamentTrain_eq_ok.2 ⟨g, l, x, gi, pi, li, gp, lp, tg, tl, tm, lh, lt, hg, hl, hx,
    hgi, hpi, hli, hgp, hlp, htg, htl, htm, hlh, hlt, rfl⟩⟩

theorem customUpdate_completes (b h : U32) {g p : Nat} (o : Bit) {s : State}
    (hbias : ∃ t ∈ s.pbias, BiasTable p t) (hw : ∃ t ∈ s.pw, WeightTable g p t)
    (hb : b.toNat < 2 ^ p) : ∃ u, customUpdate b h g o s = .ok u := by
  obtain ⟨bias, hbi, -⟩ := entryAt_shaped hbias biasInit_inBound hb
  obtain ⟨ws, hws, hlen, -⟩ := entryAt_shaped hw (weightRow_init g) hb
  obtain ⟨tb, htb⟩ := tableWrite_completes .PBIAS hbias hb (wStep o bias)
  obtain ⟨tw, htw⟩ := tableWrite_completes .PW hw hb (trainLanes h o ws)
  exact ⟨_, customUpdate_eq_ok.2 ⟨bias, tb, ws, tw, hbi, htb, hws, hlen, htw, rfl⟩⟩

theorem customTrain_completes (o : Bit) {s : State} {g p : U6} (hg : s.gbits = some g)
    (hpend : s.pending = true) (h : CustomState g.toNat p.toNat s) :
    ∃ u, customTrain o s = .ok u := by
  obtain ⟨hgh, -, -, -, -, hth, -, hbias, hw, htok⟩ := h
  obtain ⟨hpi, hsum⟩ := htok hpend
  obtain ⟨x, hx, -⟩ := HistoryIn_iff.1 hgh
  obtain ⟨th, hth⟩ := Option.isSome_iff_exists.1 hth
  obtain ⟨b, hb, hbr⟩ := IndexIn_iff.1 hpi
  obtain ⟨y, hy, -⟩ := Holds_iff.1 hsum
  obtain ⟨v, hv⟩ := customUpdate_completes b x o hbias hw hbr
  cases hgate : percGate y.toInt o th
  · exact ⟨_, customTrain_eq_ok.2 ⟨g, x, th, b, y, hg, hx, hth, hb, hy, .inl ⟨hgate, rfl⟩⟩⟩
  · exact ⟨_, customTrain_eq_ok.2
      ⟨g, x, th, b, y, hg, hx, hth, hb, hy, .inr ⟨hgate, v, hv, rfl⟩⟩⟩

theorem trainIn_completes {m : Mode} (o : Bit) {s : State} {g p l : U6} (hg : s.gbits = some g)
    (hl : s.lbits = some l) (hpend : s.pending = true)
    (h : ModeState m g.toNat p.toNat l.toNat s) : ∃ u, trainIn m o s = .ok u := by
  cases m
  case static => exact ⟨_, rfl⟩
  case gshare => exact gshareTrain_completes o hg hpend (ModeState_gshare.1 h)
  case tournament => exact tournamentTrain_completes o hg hl hpend (ModeState_tournament.1 h)
  case custom => exact customTrain_completes o hg hpend (ModeState_custom.1 h)
  case unrecognized => exact ⟨_, rfl⟩

/-- A command is answered by its fault, or by what it performs from the invariant. -/
theorem exec_completes {s : State} (h : BlockInv s) (i : Instr) : ∃ t, exec i s = .next t := by
  obtain ⟨-, -, hrun⟩ := h
  cases i with
  | init mode g p l =>
    cases hc : checkInit g p l s with
    | some k => exact ⟨_, exec_init_eq_next.2 (.inl ⟨k, hc, rfl⟩)⟩
    | none => exact ⟨_, exec_init_eq_next.2 (.inr ⟨hc, rfl⟩)⟩
  | predict pc =>
    cases hc : checkPredict s with
    | some k => exact ⟨_, exec_predict_eq_next.2 (.inl ⟨k, hc, rfl⟩)⟩
    | none =>
      obtain ⟨m, g, p, l, hm, hg, hp, hl, -, -, -, hs⟩ :=
        Running_iff.1 (hrun (checkPredict_none.1 hc).1)
      obtain ⟨u, hu⟩ := predictIn_completes pc hg hp hl hs
      exact ⟨_, exec_predict_eq_next.2 (.inr ⟨hc, m, u, hm, hu, rfl⟩)⟩
  | train o =>
    cases hc : checkTrain s with
    | some k => exact ⟨_, exec_train_eq_next.2 (.inl ⟨k, hc, rfl⟩)⟩
    | none =>
      obtain ⟨hi, hpend⟩ := checkTrain_none.1 hc
      obtain ⟨m, g, p, l, hm, hg, -, hl, -, -, -, hs⟩ := Running_iff.1 (hrun hi)
      obtain ⟨u, hu⟩ := trainIn_completes o hg hl hpend hs
      exact ⟨_, exec_train_eq_next.2 (.inr ⟨hc, m, u, hm, hu, rfl⟩)⟩

theorem perform_completes {s : State} (h : BlockInv s) (w : CommandWord) :
    ∃ t, perform w s = .next t := by
  by_cases hf : s.fault = 0#3
  · cases hd : decode w with
    | error e => exact ⟨_, perform_eq_next.2 (.inr (.inl ⟨hf, e, hd, rfl⟩))⟩
    | ok i => rw [perform_of_decode hf hd]; exact exec_completes h i
  · exact ⟨s, perform_of_faulted hf w⟩

/-- Settles O54: an idle step and a reset always answer, and a word is performed from the invariant,
where each command completes. -/
theorem stepNeverStops : Obligations.StepNeverStops := by
  intro s h
  match hin : s.inputs with
  | [] => exact ⟨s, step_eq_next.2 (.inl ⟨hin, rfl⟩)⟩
  | .reset :: rest => exact ⟨_, step_eq_next.2 (.inr (.inl ⟨rest, hin, rfl⟩))⟩
  | .command w :: rest =>
    rw [step_of_command hin]
    exact perform_completes (BlockInv_withInputs.2 h) w

/-! ### The lifecycle registers FAULT, INIT_DONE, PENDING (R23, R24, R25) -/

/-- An INIT that passes its checks (R201, R232). -/
theorem exec_init_of_legal {s : State} (mode : U32) {g p l : U6} (hi : s.initDone = false)
    (hg : 1 ≤ g.toNat ∧ g.toNat ≤ 32) (hp : 1 ≤ p.toNat ∧ p.toNat ≤ 32)
    (hl : 1 ≤ l.toNat ∧ l.toNat ≤ 32) :
    exec (.init mode g p l) s =
      .next ({ initState mode g p l s with initDone := true }.setPending false) :=
  exec_init_eq_next.2 (.inr ⟨checkInit_none.2 ⟨hi, (legalWidth_iff g).2 hg, (legalWidth_iff p).2 hp,
    (legalWidth_iff l).2 hl⟩, rfl⟩)

/-- Settles O18: of what a step can do, only a raise and a reset write FAULT. -/
theorem faultRegisterRule : Obligations.FaultRegisterRule := by
  refine ⟨rfl, fun s t hs hne => ?_⟩
  rcases step_eq_next.1 hs with ⟨-, rfl⟩ | ⟨rest, hin, rfl⟩ | ⟨w, rest, hin, -⟩
  · exact absurd rfl hne
  · exact .inr ⟨⟨rest, hin⟩, rfl⟩
  · rcases command_step_cases hin hs with ⟨-, rfl⟩ | ⟨hf, k, rfl⟩ |
      ⟨-, -, mode, g, p, l, -, -, -, -, rfl⟩ | ⟨-, -, -, pc, m, u, -, -, hu, rfl⟩ |
      ⟨-, -, -, o, m, u, -, -, hu, rfl⟩
    · exact absurd rfl hne
    · obtain ⟨hlo, hhi⟩ := faultBits_range k
      exact .inl ⟨⟨w, rest, hin⟩, hf, hlo, hhi⟩
    · exact absurd (congrArg State.fault (initState_frame mode g p l (s.withInputs rest))) hne
    · obtain ⟨b, hframe⟩ := predictIn_frame hu
      exact absurd (congrArg State.fault hframe) hne
    · exact absurd (congrArg State.fault (trainIn_frame hu)) hne

/-- Settles O19: a command that does not initialize leaves INIT_DONE as it is, by its frame. -/
theorem initDoneRule : Obligations.InitDoneRule := by
  refine ⟨rfl, fun s mode g p l hi hg1 hg2 hp1 hp2 hl1 hl2 => ?_, fun s t hs hi hi' => ?_⟩
  · exact ⟨_, exec_init_of_legal mode hi ⟨hg1, hg2⟩ ⟨hp1, hp2⟩ ⟨hl1, hl2⟩, rfl⟩
  · have hne : t.initDone ≠ s.initDone := by simp [hi, hi']
    rcases step_eq_next.1 hs with ⟨-, rfl⟩ | ⟨rest, hin, rfl⟩ | ⟨w, rest, hin, -⟩
    · exact absurd rfl hne
    · exact ⟨rest, hin⟩
    · rcases command_step_cases hin hs with ⟨-, rfl⟩ | ⟨-, k, rfl⟩ |
        ⟨-, hi0, -⟩ | ⟨-, -, -, pc, m, u, -, -, hu, rfl⟩ | ⟨-, -, -, o, m, u, -, -, hu, rfl⟩
      · exact absurd rfl hne
      · exact absurd rfl hne
      · exact absurd (hi.symm.trans hi0) (by decide)
      · obtain ⟨b, hframe⟩ := predictIn_frame hu
        exact absurd (congrArg State.initDone hframe) hne
      · exact absurd (congrArg State.initDone (trainIn_frame hu)) hne

/-- Settles O20: a command that passes its checks ends in its own write of PENDING. -/
theorem pendingRule : Obligations.PendingRule := by
  refine ⟨rfl, fun s mode g p l hi hg1 hg2 hp1 hp2 hl1 hl2 => ?_, fun s t pc hi hp hx => ?_,
    fun s t o hi hp hx => ?_⟩
  · exact ⟨_, exec_init_of_legal mode hi ⟨hg1, hg2⟩ ⟨hp1, hp2⟩ ⟨hl1, hl2⟩, rfl⟩
  · rcases exec_predict_eq_next.1 hx with ⟨k, hk, -⟩ | ⟨-, m, u, -, -, rfl⟩
    · cases hk.symm.trans (checkPredict_none.2 ⟨hi, hp⟩)
    · rfl
  · rcases exec_train_eq_next.1 hx with ⟨k, hk, -⟩ | ⟨-, m, u, -, -, rfl⟩
    · cases hk.symm.trans (checkTrain_none.2 ⟨hi, hp⟩)
    · rfl

/-! ### Who writes a table, and who a token register (R26, R39) -/

/-- A TRAIN writes no table but its own model's. -/
theorem trainIn_tables {m : Mode} {o : Bit} {s u : State} (h : trainIn m o s = .ok u) :
    (u.gpht ≠ s.gpht → m = .gshare) ∧
    (u.tgpt ≠ s.tgpt ∨ u.tlpt ≠ s.tlpt ∨ u.tmeta ≠ s.tmeta ∨ u.lht ≠ s.lht → m = .tournament) ∧
    (u.pbias ≠ s.pbias ∨ u.pw ≠ s.pw → m = .custom) := by
  cases m
  case static => cases h; simp
  case unrecognized => cases h; simp
  case gshare =>
    obtain ⟨_, _, _, _, -, -, -, -, rfl⟩ := gshareTrain_eq_ok.1 h
    simp
  case tournament =>
    obtain ⟨_, _, _, _, _, _, _, _, _, _, _, _, _, -, -, -, -, -, -, -, -, -, -, -, -, -, rfl⟩ :=
      tournamentTrain_eq_ok.1 h
    simp
  case custom =>
    obtain ⟨_, _, _, _, _, -, -, -, -, -, ⟨-, rfl⟩ | ⟨-, v, hv, rfl⟩⟩ := customTrain_eq_ok.1 h
    · simp
    · obtain ⟨_, _, _, _, -, -, -, -, -, rfl⟩ := customUpdate_eq_ok.1 hv
      simp

/-- A PREDICT writes no token register but those of its own model. -/
theorem predictIn_tokens {m : Mode} {pc : U32} {s u : State} (h : predictIn m pc s = .ok u) :
    (u.tokGidx ≠ s.tokGidx → m = .gshare ∨ m = .tournament) ∧
    (u.tokPidx ≠ s.tokPidx → m = .tournament ∨ m = .custom) ∧
    (u.tokLidx ≠ s.tokLidx ∨ u.tokGpred ≠ s.tokGpred ∨ u.tokLpred ≠ s.tokLpred →
      m = .tournament) ∧
    (u.tokSum ≠ s.tokSum → m = .custom) := by
  cases m
  case static => cases h; simp
  case unrecognized => cases h; simp
  case gshare =>
    obtain ⟨_, _, _, -, -, -, rfl⟩ := gsharePredict_eq_ok.1 h
    simp
  case tournament =>
    obtain ⟨_, _, _, _, _, _, _, _, -, -, -, -, -, -, -, -, rfl⟩ := tournamentPredict_eq_ok.1 h
    simp
  case custom =>
    obtain ⟨_, _, _, _, _, -, -, -, -, -, -, rfl⟩ := customPredict_eq_ok.1 h
    simp

/-- Settles O22: INIT owns every table, each model's TRAIN its own, and PREDICT's frame holds
none. -/
theorem tablesHaveOneOwner : Obligations.TablesHaveOneOwner := by
  intro s t w rest hin hs
  rcases command_step_cases hin hs with ⟨-, rfl⟩ | ⟨-, k, rfl⟩ |
    ⟨-, -, mode, g, p, l, hd, -, -, -, rfl⟩ | ⟨-, -, -, pc, m, u, hd, -, hu, rfl⟩ |
    ⟨-, -, -, o, m, u, hd, hm, hu, rfl⟩
  · simp [State.withInputs]
  · simp [State.withInputs, State.raise]
  · have hinit : ∃ mode g p l, decode w = .ok (.init mode g p l) := ⟨mode, g, p, l, hd⟩
    exact ⟨fun _ => .inl hinit, fun _ => .inl hinit, fun _ => .inl hinit, fun pc hpc =>
      by cases hd.symm.trans hpc⟩
  · obtain ⟨b, hframe⟩ := predictIn_frame hu
    rw [hframe]
    simp [State.withInputs, State.setPending]
  · obtain ⟨hgshare, htournament, hcustom⟩ := trainIn_tables hu
    exact ⟨fun hne => .inr ⟨⟨o, hd⟩, hm.trans (congrArg some (modeOf_gshare.1 (hgshare hne)))⟩,
      fun hne => .inr ⟨⟨o, hd⟩, hm.trans (congrArg some (modeOf_tournament.1 (htournament hne)))⟩,
      fun hne => .inr ⟨⟨o, hd⟩, hm.trans (congrArg some (modeOf_custom.1 (hcustom hne)))⟩,
      fun pc hpc => by cases hd.symm.trans hpc⟩

/-- Settles O23: the frames of INIT, TRAIN and a fault hold the token, so what changes a register is
a PREDICT of its own model. -/
theorem tokenWrittenByPredict : Obligations.TokenWrittenByPredict := by
  intro s t w rest hin hs
  rcases command_step_cases hin hs with ⟨-, rfl⟩ | ⟨-, k, rfl⟩ |
    ⟨-, -, mode, g, p, l, -, -, -, -, rfl⟩ | ⟨hf, -, -, pc, m, u, hd, hm, hu, rfl⟩ |
    ⟨-, -, -, o, m, u, -, -, hu, rfl⟩
  · simp
  · simp
  · rw [initState_frame]
    simp
  · obtain ⟨b, hframe⟩ := predictIn_frame hu
    obtain ⟨hgidx, hpidx, hlocal, hsum⟩ := predictIn_tokens hu
    have hmode {n : ModeName} (h : m = modeValue n) : s.mode = some (modeValue n) := h ▸ hm
    exact ⟨fun _ => ⟨⟨pc, hd⟩, (congrArg State.fault hframe).trans hf, rfl⟩,
      fun hne => (hgidx hne).imp (hmode <| modeOf_gshare.1 ·) (hmode <| modeOf_tournament.1 ·),
      fun hne => (hpidx hne).imp (hmode <| modeOf_tournament.1 ·) (hmode <| modeOf_custom.1 ·),
      fun hne => hmode (modeOf_tournament.1 (hlocal hne)),
      fun hne => hmode (modeOf_custom.1 (hsum hne))⟩
  · rw [trainIn_frame hu]
    simp

/-! ### A token is read only while a branch is pending (R26, R41) -/

/-- `s` with the token registers of `r`. -/
def State.withTokenOf (s r : State) : State :=
  { s with
    tokGidx := r.tokGidx, tokPidx := r.tokPidx, tokLidx := r.tokLidx, tokGpred := r.tokGpred,
    tokLpred := r.tokLpred, tokSum := r.tokSum }

theorem initState_withTokenOf (mode : U32) (g p l : U6) (s r : State) :
    initState mode g p l (s.withTokenOf r) = (initState mode g p l s).withTokenOf r := by
  unfold initState
  cases modeOf mode <;> rfl

/-- No model's PREDICT reads the token. -/
theorem predictIn_withTokenOf {m : Mode} {pc : U32} {s u : State} (r : State)
    (h : predictIn m pc s = .ok u) :
    ∃ u', predictIn m pc (s.withTokenOf r) = .ok u' ∧ u' = u.withTokenOf u' := by
  cases m
  case static => cases h; exact ⟨_, rfl, rfl⟩
  case unrecognized => cases h; exact ⟨_, rfl, rfl⟩
  case gshare =>
    obtain ⟨g, x, c, hg, hx, hc, rfl⟩ := gsharePredict_eq_ok.1 h
    exact ⟨_, gsharePredict_eq_ok.2 ⟨g, x, c, hg, hx, hc, rfl⟩, rfl⟩
  case tournament =>
    obtain ⟨g, p, l, x, cm, lh, cl, cg, hg, hp, hl, hx, hcm, hlh, hcl, hcg, rfl⟩ :=
      tournamentPredict_eq_ok.1 h
    exact ⟨_, tournamentPredict_eq_ok.2
      ⟨g, p, l, x, cm, lh, cl, cg, hg, hp, hl, hx, hcm, hlh, hcl, hcg, rfl⟩, rfl⟩
  case custom =>
    obtain ⟨g, p, x, bias, ws, hg, hp, hx, hb, hws, hlen, rfl⟩ := customPredict_eq_ok.1 h
    exact ⟨_, customPredict_eq_ok.2 ⟨g, p, x, bias, ws, hg, hp, hx, hb, hws, hlen, rfl⟩, rfl⟩

/-- The checks read no token; with none pending TRAIN ends in its check, and the others do not read
the token. -/
theorem exec_withTokenOf {i : Instr} {s t : State} (r : State) (hp : s.pending = false)
    (h : exec i s = .next t) :
    ∃ t', exec i (s.withTokenOf r) = .next t' ∧ t' = t.withTokenOf t' := by
  cases i with
  | init mode g p l =>
    rcases exec_init_eq_next.1 h with ⟨k, hk, rfl⟩ | ⟨hc, rfl⟩
    · exact ⟨_, exec_init_eq_next.2 (.inl ⟨k, hk, rfl⟩), rfl⟩
    · refine ⟨_, exec_init_eq_next.2 (.inr ⟨hc, rfl⟩), ?_⟩
      rw [initState_withTokenOf]
      rfl
  | predict pc =>
    rcases exec_predict_eq_next.1 h with ⟨k, hk, rfl⟩ | ⟨hc, m, u, hm, hu, rfl⟩
    · exact ⟨_, exec_predict_eq_next.2 (.inl ⟨k, hk, rfl⟩), rfl⟩
    · obtain ⟨u', hu', heq⟩ := predictIn_withTokenOf r hu
      exact ⟨_, exec_predict_eq_next.2 (.inr ⟨hc, m, u', hm, hu', rfl⟩),
        congrArg (State.setPending · true) heq⟩
  | train o =>
    rcases exec_train_eq_next.1 h with ⟨k, hk, rfl⟩ | ⟨hc, -⟩
    · exact ⟨_, exec_train_eq_next.2 (.inl ⟨k, hk, rfl⟩), rfl⟩
    · cases hp.symm.trans (checkTrain_none.1 hc).2

theorem perform_withTokenOf {w : CommandWord} {s t : State} (r : State) (hp : s.pending = false)
    (h : perform w s = .next t) :
    ∃ t', perform w (s.withTokenOf r) = .next t' ∧ t' = t.withTokenOf t' := by
  rcases perform_eq_next.1 h with ⟨hf, rfl⟩ | ⟨hf, e, hd, rfl⟩ | ⟨hf, i, hd, hx⟩
  · exact ⟨_, perform_eq_next.2 (.inl ⟨hf, rfl⟩), rfl⟩
  · exact ⟨_, perform_eq_next.2 (.inr (.inl ⟨hf, e, hd, rfl⟩)), rfl⟩
  · obtain ⟨t', ht', heq⟩ := exec_withTokenOf r hp hx
    exact ⟨t', perform_eq_next.2 (.inr (.inr ⟨hf, i, hd, ht'⟩)), heq⟩

/-- Settles O24: a step with other token registers runs the same case of the step. -/
theorem staleTokenIsNeverRead : Obligations.StaleTokenIsNeverRead := by
  intro s t s' hp heq hs
  change s' = s.withTokenOf s' at heq
  rw [heq]
  rcases step_eq_next.1 hs with ⟨hin, rfl⟩ | ⟨rest, hin, rfl⟩ | ⟨w, rest, hin, hw⟩
  · exact ⟨_, step_eq_next.2 (.inl ⟨hin, rfl⟩), rfl⟩
  · exact ⟨_, step_eq_next.2 (.inr (.inl ⟨rest, hin, rfl⟩)), rfl⟩
  · obtain ⟨t', ht', heq'⟩ := perform_withTokenOf (s := s.withInputs rest) s' hp hw
    exact ⟨t', step_eq_next.2 (.inr (.inr ⟨w, rest, hin, ht'⟩)), heq'⟩

end Sys2Proof.Machine

namespace Sys2Proof.Machine

/-! ### One table: reads, writes and the canonical form (R50, R52, R53) -/

section
variable {α : Type}

/-- PW after a write of a row with lane `k` set (R52). -/
theorem weightAt_set_lane {t t' : Table (List Weight)} {b k : Nat} {v : Weight} {row : List Weight}
    (hrow : t.read b = some row) (hk : k < row.length)
    (hread : ∀ j, t'.read j = if j = b then some (row.set k v) else t.read j) (b' k' : Nat) :
    weightAt (some t') b' k' =
      if b' = b ∧ k' = k then some v else weightAt (some t) b' k' := by
  simp only [weightAt, entryAt, Option.bind_some, hread]
  by_cases hb : b' = b
  · subst hb
    by_cases hk' : k' = k
    · subst hk'
      simp [hk]
    · simp [hk', hrow, List.getElem?_set_ne (Ne.symm hk')]
  · simp [hb]

/-- Settles O33: both parts are the one lemma of `Table.write`, the second with a row as the entry. -/
theorem tableWriteChangesOneEntry : Obligations.TableWriteChangesOneEntry := by
  refine ⟨fun α _ t i v hi => ?_, fun t b k v row hrow hk => ?_⟩
  · obtain ⟨t', hw, hbits, -, hread, -⟩ := t.write_spec i v hi
    exact ⟨t', hw, hbits, hread⟩
  · obtain ⟨t', hw, -, -, hread, -⟩ := t.write_spec b (row.set k v) (Table.read_lt hrow)
    exact ⟨t', hw, weightAt_set_lane hrow hk hread⟩

theorem tableRead_outOfRange (e : Element) {t : Table α} {i : U32} (h : 2 ^ t.bits ≤ i.toNat) :
    tableRead e (some t) i = .error (.indexOutOfRange e) := by
  simp [tableRead, inRange, Table.read, h.not_gt]

theorem tableWrite_outOfRange [DecidableEq α] (e : Element) {t : Table α} {i : U32} (v : α)
    (h : 2 ^ t.bits ≤ i.toNat) :
    tableWrite e (some t) i v = .error (.indexOutOfRange e) := by
  simp [tableWrite, inRange, Table.write, h.not_gt]

theorem tableAccess_inRange [DecidableEq α] (e : Element) {t : Table α} {i : U32} (v : α)
    (h : i.toNat < 2 ^ t.bits) :
    ∃ a t', tableRead e (some t) i = .ok a ∧ tableWrite e (some t) i v = .ok t' := by
  obtain ⟨a, ha⟩ := Table.read_isSome h
  obtain ⟨t', hw, -⟩ := tableWrite_spec (e := e) v h
  exact ⟨a, t', tableRead_eq_ok.2 (entryAt_eq_some.2 ⟨t, rfl, ha⟩), hw⟩

/-- Settles O34: a masked index, and the XOR of two, is below the table's size (R102, R120). -/
theorem indexOutOfRangeIsModelFault : Obligations.IndexOutOfRangeIsModelFault := by
  intro α _ e t i v
  exact ⟨fun h => ⟨tableRead_outOfRange e h, tableWrite_outOfRange e v h⟩,
    fun u => tableAccess_inRange e v (idx_lt u t.bits),
    fun u x => tableAccess_inRange e v (idx_xor_lt u x t.bits)⟩

/-- A canonical table lists exactly the entries that read other than the fill. -/
theorem Table.cellGet_eq_of_wf [DecidableEq α] {t : Table α} (h : t.wf) (j : Nat) :
    cellGet j t.cells = (t.read j).filter (· ≠ t.fill) := by
  cases hg : cellGet j t.cells with
  | none => by_cases hj : j < 2 ^ t.bits <;> simp [Table.read, hg, hj, Option.filter]
  | some v =>
    obtain ⟨hj, hv⟩ : j < 2 ^ t.bits ∧ v ≠ t.fill := h.2 _ (cellGet_mem hg)
    simp [Table.read, hg, hj, hv, Option.filter]

/-- Settles O35: the reads and the fill of a canonical table determine its listed cells, so they
determine the table. -/
theorem tableFormIsCanonical : Obligations.TableFormIsCanonical := by
  intro α _
  refine ⟨Table.filled_wf, fun t t' i v hwf hw => Table.write_wf hwf hw,
    fun t u ht hu hbits hfill hread => ?_⟩
  have hcells : t.cells = u.cells := cells_eq_of_get_eq ht.1 hu.1 fun j => by
    rw [Table.cellGet_eq_of_wf ht, Table.cellGet_eq_of_wf hu, hread, hfill]
  cases t
  cases u
  exact (Table.mk.injEq ..).mpr ⟨hbits, hfill, hcells⟩

/-! ### Every step keeps the canonical form of every table (R50, R52) -/

/-- A table element that holds a value holds one in canonical form: `Memory.wf` of one element. -/
abbrev Canonical (o : Option (Table α)) : Prop := ∀ t ∈ o, t.wf

theorem canonical_some {t : Table α} : Canonical (some t) ↔ t.wf := by simp [Canonical]

theorem filled_canonical (n : Nat) (v : α) : Canonical (some (Table.filled n v)) :=
  canonical_some.2 (Table.filled_wf n v)

theorem tableWrite_canonical [DecidableEq α] {e : Element} {o : Option (Table α)} {i : U32} {v : α}
    {t' : Table α} (h : Canonical o) (hw : tableWrite e o i v = .ok t') : Canonical (some t') := by
  obtain ⟨u, rfl, hu⟩ := tableWrite_eq_ok hw
  exact canonical_some.2 (Table.write_wf (canonical_some.1 h) hu)

end

theorem sctTrain_canonical {e : Element} {o : Option (Table Counter)} {i : U32} {d : Bit}
    {t' : Table Counter} (h : Canonical o) (hw : sctTrain e o i d = .ok t') :
    Canonical (some t') := by
  obtain ⟨u, c, rfl, -, hu⟩ := sctTrain_eq_ok hw
  exact canonical_some.2 (Table.write_wf (canonical_some.1 h) hu)

theorem metaTrain_canonical {o : Option (Table Counter)} {gi : U32} {lp gp t : Bit}
    {t' : Table Counter} (h : Canonical o) (hw : metaTrain o gi lp gp t = .ok t') :
    Canonical (some t') := by
  by_cases hd : lp = gp
  · subst hd
    rw [metaTrain_agree, need_eq_ok] at hw
    exact hw ▸ h
  · rw [metaTrain_differ hd] at hw
    exact sctTrain_canonical h hw

/-- INIT fills the active mode's tables and leaves the others (R202). -/
theorem Memory.wf_initState {s : State} (h : Memory.wf s) (mode : U32) (g p l : U6) :
    Memory.wf (initState mode g p l s) := by
  obtain ⟨hgpht, htgpt, htlpt, htmeta, hlht, hpbias, hpw⟩ := h
  unfold initState
  cases modeOf mode
  case static => exact ⟨hgpht, htgpt, htlpt, htmeta, hlht, hpbias, hpw⟩
  case unrecognized => exact ⟨hgpht, htgpt, htlpt, htmeta, hlht, hpbias, hpw⟩
  case gshare => exact ⟨filled_canonical _ _, htgpt, htlpt, htmeta, hlht, hpbias, hpw⟩
  case tournament =>
    exact ⟨hgpht, filled_canonical _ _, filled_canonical _ _, filled_canonical _ _,
      filled_canonical _ _, hpbias, hpw⟩
  case custom =>
    exact ⟨hgpht, htgpt, htlpt, htmeta, hlht, filled_canonical _ _, filled_canonical _ _⟩

/-- A TRAIN writes its own model's tables through the table operations (R121, R141, R180). -/
theorem Memory.wf_trainIn {m : Mode} {o : Bit} {s u : State} (h : Memory.wf s)
    (hu : trainIn m o s = .ok u) : Memory.wf u := by
  obtain ⟨hgpht, htgpt, htlpt, htmeta, hlht, hpbias, hpw⟩ := id h
  cases m
  case static => cases hu; exact h
  case unrecognized => cases hu; exact h
  case gshare =>
    obtain ⟨g, x, i, v, -, -, -, hv, rfl⟩ := gshareTrain_eq_ok.1 hu
    exact ⟨sctTrain_canonical hgpht hv, htgpt, htlpt, htmeta, hlht, hpbias, hpw⟩
  case tournament =>
    obtain ⟨g, l, x, gi, pi, li, gp, lp, tg, tl, tm, lh, lt, -, -, -, -, -, -, -, -, htg, htl, htm,
      -, hlt, rfl⟩ := tournamentTrain_eq_ok.1 hu
    exact ⟨hgpht, sctTrain_canonical htgpt htg, sctTrain_canonical htlpt htl,
      metaTrain_canonical htmeta htm, tableWrite_canonical hlht hlt, hpbias, hpw⟩
  case custom =>
    obtain ⟨g, x, th, b, y, -, -, -, -, -, ⟨-, rfl⟩ | ⟨-, v, hv, rfl⟩⟩ := customTrain_eq_ok.1 hu
    · exact h
    · obtain ⟨bias, tb, ws, tw, -, htb, -, -, htw, rfl⟩ := customUpdate_eq_ok.1 hv
      exact ⟨hgpht, htgpt, htlpt, htmeta, hlht, tableWrite_canonical hpbias htb,
        tableWrite_canonical hpw htw⟩

/-- A PREDICT's frame holds every table (R39). -/
theorem Memory.wf_predictIn {m : Mode} {pc : U32} {s u : State} (h : Memory.wf s)
    (hu : predictIn m pc s = .ok u) : Memory.wf u := by
  obtain ⟨b, hframe⟩ := predictIn_frame hu
  rw [hframe]
  exact h

/-- Settles O56: a step leaves the tables as they are, takes them all away (reset), fills them (INIT),
or writes them through the table operations (TRAIN). -/
theorem stepKeepsTablesCanonical : Obligations.StepKeepsTablesCanonical := by
  intro s t h hs
  rcases step_eq_next.1 hs with ⟨-, rfl⟩ | ⟨rest, -, rfl⟩ | ⟨w, rest, hin, -⟩
  · exact h
  · exact Memory.wf_reset
  · have h' : Memory.wf (s.withInputs rest) := h
    rcases command_step_cases hin hs with ⟨-, rfl⟩ | ⟨-, k, rfl⟩ |
      ⟨-, -, mode, g, p, l, -, -, -, -, rfl⟩ | ⟨-, -, -, pc, m, u, -, -, hu, rfl⟩ |
      ⟨-, -, -, o, m, u, -, -, hu, rfl⟩
    · exact h'
    · exact h'
    · exact Memory.wf_initState h' mode g p l
    · have hkeep : Memory.wf u := Memory.wf_predictIn h' hu
      exact hkeep
    · have hkeep : Memory.wf u := Memory.wf_trainIn h' hu
      exact hkeep

end Sys2Proof.Machine

namespace Sys2Proof

/-! ### The decoder and the encoder undo each other (30_encoding.md R72 to R77) -/

/-- Where a mask is all ones over a field, the field can be read off the masked word. -/
theorem extractLsb'_of_and_eq {w M m : CommandWord} {k n : Nat} (h : w &&& M = m)
    (hM : M.extractLsb' k n = BitVec.allOnes n) : w.extractLsb' k n = m.extractLsb' k n := by
  rw [← h, BitVec.extractLsb'_and, hM, BitVec.and_allOnes]

/-- A word that meets F-INIT's match and mask is an INIT (R73). -/
theorem decode_of_init_match {w : CommandWord} (h : w &&& 0x00000000C0C0C0FF#64 = 1#64) :
    decode w = .ok (initFields w) := by
  have hop : opField w = 1#2 := extractLsb'_of_and_eq h (by decide)
  have hreserved : w &&& initReserved = 0 := calc w &&& initReserved
    _ = w &&& (0x00000000C0C0C0FF#64 &&& initReserved) := rfl
    _ = 1#64 &&& initReserved := by rw [← BitVec.and_assoc, h]
    _ = 0 := by decide
  simp [decode, hop, hreserved]

/-- A word that meets F-PRED's match and mask is a PREDICT (R74). -/
theorem decode_of_predict_match {w : CommandWord} (h : w &&& 0x00000000FFFFFFFF#64 = 2#64) :
    decode w = .ok (.predict (w.extractLsb' 32 32)) := by
  have hop : opField w = 2#2 := extractLsb'_of_and_eq h (by decide)
  have hreserved : w.extractLsb' 2 30 = 0#30 := extractLsb'_of_and_eq h (by decide)
  simp [decode, hop, hreserved]

/-- A word that meets F-TRAIN's match and mask is a TRAIN (R75). -/
theorem decode_of_train_match {w : CommandWord} (h : w &&& 0xFFFFFFFFFFFFFFFB#64 = 3#64) :
    decode w = .ok (.train (w.getLsbD 2)) := by
  have hop : opField w = 3#2 := extractLsb'_of_and_eq h (by decide)
  have hreserved : w.extractLsb' 3 61 = 0#61 := extractLsb'_of_and_eq h (by decide)
  simp [decode, hop, hreserved]

/-- A field of a word is a quotient and a remainder of the word's number. -/
theorem extractLsb'_toNat_eq_div (w : CommandWord) (k n : Nat) :
    (w.extractLsb' k n).toNat = w.toNat / 2 ^ k % 2 ^ n := by
  rw [BitVec.extractLsb'_toNat, Nat.shiftRight_eq_div_pow]

/-- The fields of an INIT word are the operands it was made from (R73). -/
theorem initFields_encode (mode : U32) (g p l : U6) :
    initFields (encode (.init mode g p l)) = .init mode g p l := by
  have := mode.isLt
  have := g.isLt
  have := p.isLt
  have := l.isLt
  simp only [initFields, Instr.init.injEq, BitVec.toNat_eq, extractLsb'_toNat_eq_div,
    encode_init_toNat]
  omega

/-- The pc field of a PREDICT word is the pc it was made from (R74). -/
theorem pcField_encode (pc : U32) : (encode (.predict pc)).extractLsb' 32 32 = pc := by
  have := pc.isLt
  apply BitVec.eq_of_toNat_eq
  rw [extractLsb'_toNat_eq_div, encode_predict_toNat]
  omega

/-- Bit 2 of a TRAIN word is the outcome it was made from (R75). -/
theorem outcomeBit_encode (t : Bit) : (encode (.train t)).getLsbD 2 = t := by
  cases t <;> rfl

/-- An encoded command meets its row's match and mask, so the decoder picks its format, and each
field holds its operand. -/
theorem decode_encode (i : Instr) : decode (encode i) = .ok i := by
  cases i with
  | init mode g p l =>
    rw [decode_of_init_match (Laws.EncodingRow.init mode g p l), initFields_encode]
  | predict pc => rw [decode_of_predict_match (Laws.EncodingRow.predict pc), pcField_encode]
  | train t => rw [decode_of_train_match (Laws.EncodingRow.train t), outcomeBit_encode]

/-- A word with F-INIT's op and no reserved bit set is its fields laid side by side (R73). -/
theorem encode_initFields {w : CommandWord} (hop : opField w = 1#2)
    (hreserved : w &&& initReserved = 0) : encode (initFields w) = w := by
  have h2 : w.extractLsb' 2 6 = 0#6 := extractLsb'_of_and_eq hreserved (by decide)
  have h14 : w.extractLsb' 14 2 = 0#2 := extractLsb'_of_and_eq hreserved (by decide)
  have h22 : w.extractLsb' 22 2 = 0#2 := extractLsb'_of_and_eq hreserved (by decide)
  have h30 : w.extractLsb' 30 2 = 0#2 := extractLsb'_of_and_eq hreserved (by decide)
  calc encode (initFields w)
    _ = w.extractLsb' 32 32 ++ w.extractLsb' 30 2 ++ w.extractLsb' 24 6 ++ w.extractLsb' 22 2 ++
        w.extractLsb' 16 6 ++ w.extractLsb' 14 2 ++ w.extractLsb' 8 6 ++ w.extractLsb' 2 6 ++
        opField w := by rw [h30, h22, h14, h2, hop]; rfl
    _ = w := by
      simp only [opField, BitVec.extractLsb'_append_extractLsb'_eq_extractLsb',
        BitVec.extractLsb'_eq_self]

/-- A word with F-PRED's op and no reserved bit set is its fields laid side by side (R74). -/
theorem encode_pcField {w : CommandWord} (hop : opField w = 2#2)
    (hreserved : w.extractLsb' 2 30 = 0) : encode (.predict (w.extractLsb' 32 32)) = w :=
  calc encode (.predict (w.extractLsb' 32 32))
    _ = w.extractLsb' 32 32 ++ w.extractLsb' 2 30 ++ opField w := by rw [hreserved, hop]; rfl
    _ = w := by
      simp only [opField, BitVec.extractLsb'_append_extractLsb'_eq_extractLsb',
        BitVec.extractLsb'_eq_self]

/-- A word with F-TRAIN's op and no reserved bit set is its fields laid side by side (R75). -/
theorem encode_outcomeBit {w : CommandWord} (hop : opField w = 3#2)
    (hreserved : w.extractLsb' 3 61 = 0) : encode (.train (w.getLsbD 2)) = w := by
  have hbit : BitVec.ofBool (w.getLsbD 2) = w.extractLsb' 2 1 := by
    rw [BitVec.getLsbD_eq_extractLsb']
    generalize w.extractLsb' 2 1 = x
    revert x
    decide
  calc encode (.train (w.getLsbD 2))
    _ = w.extractLsb' 3 61 ++ w.extractLsb' 2 1 ++ opField w := by rw [hreserved, ← hbit, hop]; rfl
    _ = w := by
      simp only [opField, BitVec.extractLsb'_append_extractLsb'_eq_extractLsb',
        BitVec.extractLsb'_eq_self]

/-- A word that decodes has no reserved bit set, so nothing of it is lost in its fields. -/
theorem encode_of_decode {w : CommandWord} {i : Instr} (h : decode w = .ok i) : encode i = w := by
  rcases decode_cases w with ⟨hop, hr, hd⟩ | ⟨hop, hr, hd⟩ | ⟨hop, hr, hd⟩ | ⟨⟨e, hd⟩, -⟩
  · cases hd.symm.trans h
    exact encode_initFields hop hr
  · cases hd.symm.trans h
    exact encode_pcField hop hr
  · cases hd.symm.trans h
    exact encode_outcomeBit hop hr
  · cases hd.symm.trans h

/-- The words of a command, as numbers: there is one. -/
theorem decode_eq_ok_iff_toNat {w : CommandWord} {i : Instr} :
    decode w = .ok i ↔ w.toNat = (encode i).toNat := by
  constructor
  · intro h
    rw [encode_of_decode h]
  · intro h
    rw [BitVec.eq_of_toNat_eq h, decode_encode]

/-- Settles O2: by the three formats, each of which the decoder reads back field by field. -/
theorem decodeEncodeIsIdentity : Obligations.DecodeEncodeIsIdentity := decode_encode

/-- Settles O3: by the decoder's outcomes; each format's word is its fields and zeros. -/
theorem encodeDecodeIsIdentity : Obligations.EncodeDecodeIsIdentity := fun _ _ => encode_of_decode

/-- Settles O4: the one word of an INIT, as a number and against its row. -/
theorem initFormat : Obligations.InitFormat := by
  refine fun w => ⟨fun mode g p l => ?_, ?_, fun h => ⟨_, _, _, _, decode_of_init_match h⟩⟩
  · rw [decode_eq_ok_iff_toNat, encode_init_toNat]
  · rintro ⟨mode, g, p, l, hd⟩
    rw [← encode_of_decode hd]
    exact Laws.EncodingRow.init mode g p l

/-- Settles O5: the one word of a PREDICT, as a number and against its row. -/
theorem predictFormat : Obligations.PredictFormat := by
  refine fun w => ⟨fun pc => ?_, ?_, fun h => ⟨_, decode_of_predict_match h⟩⟩
  · rw [decode_eq_ok_iff_toNat, encode_predict_toNat]
  · rintro ⟨pc, hd⟩
    rw [← encode_of_decode hd]
    exact Laws.EncodingRow.predict pc

/-- Settles O6: the one word of a TRAIN, as a number and against its row. -/
theorem trainFormat : Obligations.TrainFormat := by
  refine fun w => ⟨fun t => ?_, ?_, fun h => ⟨_, decode_of_train_match h⟩⟩
  · rw [decode_eq_ok_iff_toNat, encode_train_toNat]
  · rintro ⟨t, hd⟩
    rw [← encode_of_decode hd]
    exact Laws.EncodingRow.train t

/-- Settles O1: the encoder gives each word of the table, and decoding undoes the encoder. -/
theorem exampleWordsDecode : Obligations.ExampleWordsDecode := by
  intro e he
  have hword : encode e.2 = e.1 := by
    revert e
    decide
  exact ⟨hword, hword ▸ decode_encode e.2⟩

/-! ### Illegal words (R79) -/

theorem ne_zero_iff_getLsbD {n : Nat} {x : BitVec n} : x ≠ 0 ↔ ∃ i, x.getLsbD i = true := by
  constructor
  · intro hne
    by_contra hnone
    exact hne (BitVec.eq_of_getLsbD_eq fun i _ => by simpa using not_exists.1 hnone i)
  · rintro ⟨i, hi⟩ rfl
    simp at hi

/-- The reserved bits of F-INIT, by number (R73). -/
theorem getLsbD_initReserved (i : Nat) :
    initReserved.getLsbD i = true ↔ i ∈ [2, 3, 4, 5, 6, 7, 14, 15, 22, 23, 30, 31] := by
  by_cases hi : i < 64
  · revert i
    decide
  · rw [BitVec.getLsbD_of_ge _ _ (by omega)]
    simp only [Bool.false_eq_true, List.mem_cons, List.not_mem_nil, or_false, false_iff]
    omega

theorem and_initReserved_ne_zero {w : CommandWord} : w &&& initReserved ≠ 0 ↔
    ∃ i ∈ [2, 3, 4, 5, 6, 7, 14, 15, 22, 23, 30, 31], w.getLsbD i = true := by
  simp only [ne_zero_iff_getLsbD, BitVec.getLsbD_and, Bool.and_eq_true, getLsbD_initReserved,
    and_comm]

/-- A field is not zero exactly when one of its bits, numbered `k` to `hi` in the word, is set. -/
theorem extractLsb'_ne_zero {w : CommandWord} {k n hi : Nat} (h : hi + 1 = k + n) :
    w.extractLsb' k n ≠ 0 ↔ ∃ i, k ≤ i ∧ i ≤ hi ∧ w.getLsbD i = true := by
  simp only [ne_zero_iff_getLsbD, BitVec.getLsbD_extractLsb', Bool.and_eq_true, decide_eq_true_eq]
  constructor
  · rintro ⟨j, hj, hbit⟩
    exact ⟨k + j, by omega, by omega, hbit⟩
  · rintro ⟨i, hlo, hhi, hbit⟩
    exact ⟨i - k, by omega, by rwa [Nat.add_sub_cancel' hlo]⟩

/-- A word is illegal exactly when `op` selects no format, or selects one that has a reserved bit
set (R77, R79). -/
theorem decode_error_iff {w : CommandWord} : (∃ e, decode w = .error e) ↔
    opField w = 0#2 ∨ (opField w = 1#2 ∧ w &&& initReserved ≠ 0) ∨
      (opField w = 2#2 ∧ w.extractLsb' 2 30 ≠ 0) ∨ (opField w = 3#2 ∧ w.extractLsb' 3 61 ≠ 0) := by
  rcases decode_cases w with ⟨hop, hr, hd⟩ | ⟨hop, hr, hd⟩ | ⟨hop, hr, hd⟩ | ⟨he, hill⟩
  · simp [hop, hr, hd]
  · simp [hop, hr, hd]
  · simp [hop, hr, hd]
  · exact iff_of_true he hill

end Sys2Proof

namespace Sys2Proof.Machine

/-- No command leaves the block as it was: one that faults writes FAULT, an INIT writes INIT_DONE,
and a PREDICT and a TRAIN write PENDING (R79). -/
theorem exec_ne_self (i : Instr) {s : State} (hf : s.fault = 0#3) : exec i s ≠ .next s := by
  intro hx
  have hraise (k : FaultCode) : s ≠ s.raise k := fun h =>
    faultBits_ne_none k ((congrArg State.fault h).symm.trans hf)
  cases i with
  | init mode g p l =>
    rcases exec_init_eq_next.1 hx with ⟨k, -, h⟩ | ⟨hc, h⟩
    · exact hraise k h
    · exact absurd ((checkInit_none.1 hc).1.symm.trans (congrArg State.initDone h)) (by simp)
  | predict pc =>
    rcases exec_predict_eq_next.1 hx with ⟨k, -, h⟩ | ⟨hc, _, _, -, -, h⟩
    · exact hraise k h
    · exact absurd ((checkPredict_none.1 hc).2.symm.trans (congrArg State.pending h)) (by simp)
  | train o =>
    rcases exec_train_eq_next.1 hx with ⟨k, -, h⟩ | ⟨hc, _, _, -, -, h⟩
    · exact hraise k h
    · exact absurd ((checkTrain_none.1 hc).2.symm.trans (congrArg State.pending h)) (by simp)

/-- Settles O7: the decoder's refusals bit by bit, the fault they raise, and no command that changes
nothing. -/
theorem illegalEncodings : Obligations.IllegalEncodings := by
  refine ⟨fun w => ?_, fun s w rest hin hf ⟨e, he⟩ => ?_, fun s w hf hp => ?_,
    fun mode g p l hm => ?_⟩
  · rw [decode_error_iff, and_initReserved_ne_zero, extractLsb'_ne_zero (k := 2) (hi := 31) rfl,
      extractLsb'_ne_zero (k := 3) (hi := 63) rfl]
    rfl
  · rw [step_of_command hin]
    exact perform_eq_next.2 (.inr (.inl ⟨hf, e, he, rfl⟩))
  · rcases perform_eq_next.1 hp with ⟨hne, -⟩ | ⟨-, e, -, h⟩ | ⟨-, i, -, hx⟩
    · exact hne hf
    · exact faultBits_ne_none .illegalCommand ((congrArg State.fault h).symm.trans hf)
    · exact exec_ne_self i hf hx
  · exact ⟨encode (.init mode g p l), decode_encode _, modeOf_unnamed.2 hm⟩

/-! ### The assembler (R80) -/

/-- A mode operand that is taken stands for a number of the mode field. -/
theorem modeNumber_lt {m : ModeOperand} (h : m.wellFormed = true) : modeNumber m < 2 ^ 32 := by
  cases m with
  | named n => exact (modeValue n).isLt
  | number n => exact of_decide_eq_true h

/-- A number below a field's bound is kept whole by the field. -/
theorem ofNat_toNat_of_lt {n x : Nat} (h : x < 2 ^ n) : (BitVec.ofNat n x).toNat = x :=
  (BitVec.toNat_ofNat x n).trans (Nat.mod_eq_of_lt h)

theorem assemble_of_wellFormed {c : SourceCommand} (h : c.wellFormed = true) :
    assemble c = some (encode (lower c)) := if_pos h

/-- Settles O8: the assembler's word is the encoding of the lowered command, whose fields hold
its numbers whole. -/
theorem assemblerPlacesOperands : Obligations.AssemblerPlacesOperands := by
  refine ⟨fun c hc => ⟨_, lower c, assemble_of_wellFormed hc, decode_encode _, ?_⟩,
    fun c hc => if_neg (by simp [hc])⟩
  cases c with
  | init m g p l =>
    simp only [SourceCommand.wellFormed, Bool.and_eq_true, decide_eq_true_eq] at hc
    obtain ⟨⟨⟨hm, hg⟩, hp⟩, hl⟩ := hc
    exact ⟨_, _, _, _, rfl, ofNat_toNat_of_lt (modeNumber_lt hm),
      ofNat_toNat_of_lt hg, ofNat_toNat_of_lt hp, ofNat_toNat_of_lt hl⟩
  | predict pc => exact ⟨_, rfl, ofNat_toNat_of_lt (of_decide_eq_true hc)⟩
  | train t => cases t <;> rfl

/-! ### Responses (R71) -/

/-- The port shows the first of the responses that a command appended (R70). -/
theorem respPort_of_append {s t : State} {bs : List Bit} (h : t.resp = s.resp ++ bs) :
    respPort s t = bs.head? := by
  rw [respPort, h, List.drop_left]

theorem respPort_of_same {s t : State} (h : t.resp = s.resp) : respPort s t = none :=
  respPort_of_append (bs := []) (by rw [h, List.append_nil])

/-- Settles O25: of what a step can do, only PREDICT's frame holds a response. -/
theorem oneResponsePerPredict : Obligations.OneResponsePerPredict := by
  intro s t w rest hin hf hs
  have hnone (h : t.resp = s.resp) : t.resp = s.resp ∧ respPort s t = none :=
    ⟨h, respPort_of_same h⟩
  rcases command_step_cases hin hs with ⟨hne, -⟩ | ⟨-, k, rfl⟩ |
    ⟨-, -, mode, g, p, l, hd, -, -, -, rfl⟩ | ⟨-, -, -, pc, m, u, hd, -, hu, rfl⟩ |
    ⟨-, -, -, o, m, u, hd, -, hu, rfl⟩
  · exact absurd hf hne
  · exact ⟨fun hclean => absurd hclean (faultBits_ne_none k), fun _ => hnone rfl⟩
  · have hresp : (initState mode g p l (s.withInputs rest)).resp = s.resp :=
      (congrArg State.resp (initState_frame mode g p l (s.withInputs rest)) :)
    exact ⟨fun _ pc hpc => absurd (hd.symm.trans hpc) nofun, fun _ => hnone hresp⟩
  · obtain ⟨b, hframe⟩ := predictIn_frame hu
    have hresp : u.resp = s.resp ++ [b] := congrArg State.resp hframe
    have hclean : u.fault = 0#3 := (congrArg State.fault hframe).trans hf
    refine ⟨fun _ _ _ => ⟨b, hresp, respPort_of_append hresp⟩, ?_⟩
    rintro (hne | hother)
    · exact absurd hclean hne
    · exact absurd hd (hother pc)
  · have hresp : u.resp = s.resp := (congrArg State.resp (trainIn_frame hu) :)
    exact ⟨fun _ pc hpc => absurd (hd.symm.trans hpc) nofun, fun _ => hnone hresp⟩

end Sys2Proof.Machine

namespace Sys2Proof.Machine

/-! ### The primitives (R100, R102, R103, R105) -/

/-- A shifted history read as one bit put below the old ones, cut at the width (R100). -/
theorem histShift_getLsbD (h : U32) (t : Bit) {w : Nat} (hw : w ≤ 32) (i : Nat) :
    (histShift h t w).getLsbD i = (decide (i < w) && (Nat.bit t h.toNat).testBit i) := by
  rw [← BitVec.testBit_toNat, histShift_toNat h t hw, ← Nat.bit_val, Nat.testBit_mod_two_pow]

/-- Settles O26: the new history is the old one with the outcome put below it, modulo `2 ^ w`. -/
theorem historyShift : Obligations.HistoryShift := by
  intro h t w hpos hw
  refine ⟨histShift_toNat h t hw, (le_mask_iff _ w).2 (histShift_lt h t hw), ?_,
    fun i hi hiw => ?_, fun i hwi => ?_⟩
  · rw [histShift_getLsbD h t hw, Nat.testBit_bit_zero,
      decide_eq_true (Nat.lt_of_succ_le hpos), Bool.true_and]
  · obtain ⟨k, rfl⟩ := Nat.exists_eq_add_of_le' hi
    rw [histShift_getLsbD h t hw, Nat.testBit_bit_succ, decide_eq_true hiw, Bool.true_and,
      BitVec.testBit_toNat, Nat.add_sub_cancel]
  · rw [histShift_getLsbD h t hw, decide_eq_false hwi.not_gt, Bool.false_and]

/-- The width-32 mask keeps every bit of a u32 (R102). -/
theorem idx_full_width (v : U32) : idx v 32 = v := by
  apply BitVec.eq_of_toNat_eq
  rw [idx_toNat, Nat.mod_eq_of_lt v.isLt]

/-- Settles O27: `Idx` is the remainder by `2 ^ n`, and an XOR of values below `2 ^ n` stays
below. -/
theorem indexMask : Obligations.IndexMask := by
  intro v u n _ _
  refine ⟨idx_toNat v n, (le_mask_iff _ n).2 (idx_lt v n), (le_mask_iff _ n).2 (idx_xor_lt v u n),
    ?_⟩
  rintro rfl
  exact idx_full_width v

theorem satUpdate_true_iterate_toNat (c : Counter) (n : Nat) :
    ((fun c => satUpdate c true)^[n] c).toNat = min (c.toNat + n) 3 := by
  induction n generalizing c with
  | zero => exact (min_eq_left (Nat.le_of_lt_succ c.isLt)).symm
  | succ n ih =>
    rw [Function.iterate_succ_apply, ih, satUpdate_true_toNat]
    omega

theorem satUpdate_false_iterate_toNat (c : Counter) (n : Nat) :
    ((fun c => satUpdate c false)^[n] c).toNat = c.toNat - n := by
  induction n generalizing c with
  | zero => rfl
  | succ n ih =>
    rw [Function.iterate_succ_apply, ih, satUpdate_false_toNat]
    omega

/-- Settles O28, by induction on the number of steps each way; `SatInc` and `SatDec` are
`SatUpdate` toward 1 and toward 0. -/
theorem counterSaturates : Obligations.CounterSaturates := fun c n =>
  ⟨satUpdate_true_iterate_toNat c n, satUpdate_false_iterate_toNat c n,
    satUpdate_true_toNat c, satUpdate_false_toNat c, ctrPred_iff c⟩

theorem wInc_iterate_toInt {x : Weight} (h : inBound x) (n : Nat) :
    (wInc^[n] x).toInt = min (x.toInt + n) 127 := by
  induction n generalizing x with
  | zero => simpa using ((inBound_iff x).1 h).2
  | succ n ih =>
    have hstep : inBound (wInc x) := wStep_inBound true h
    rw [Function.iterate_succ_apply, ih hstep, wInc_toInt h]
    omega

theorem wDec_iterate_toInt {x : Weight} (h : inBound x) (n : Nat) :
    (wDec^[n] x).toInt = max (x.toInt - n) (-127) := by
  induction n generalizing x with
  | zero => simpa using ((inBound_iff x).1 h).1
  | succ n ih =>
    have hstep : inBound (wDec x) := wStep_inBound false h
    rw [Function.iterate_succ_apply, ih hstep, wDec_toInt h]
    omega

/-- Settles O29, by induction on the number of steps each way, each of which stays in range. -/
theorem weightSaturates : Obligations.WeightSaturates := by
  intro x n hlo hhi
  have hx : inBound x := (inBound_iff x).2 ⟨hlo, hhi⟩
  exact ⟨wInc_iterate_toInt hx n, wDec_iterate_toInt hx n⟩

/-! ### Counter tables (R104) -/

/-- Settles O36: the entry that reads `c` is the one a prediction takes its bit from, and the one
entry that training steps. -/
theorem counterTableOperations : Obligations.CounterTableOperations := by
  intro e t i c hc
  have hentry : entryAt (some t) i.toNat = some c := entryAt_eq_some.2 ⟨t, rfl, hc⟩
  exact ⟨sctPredict_eq_ok.2 ⟨c, hentry, rfl⟩, fun d => sctTrain_entry e d hentry⟩

end Sys2Proof.Machine

namespace Sys2Proof.Machine

/-! ### PREDICT and TRAIN past their checks (R203, R204, R232) -/

/-- A PREDICT that passes its checks answers what the mode's model does, with PENDING set. -/
theorem exec_predict_of_ok {s u : State} {pc m : U32} {mode : Mode} (hi : s.initDone = true)
    (hp : s.pending = false) (hm : s.mode = some m) (hmode : modeOf m = mode)
    (hu : predictIn mode pc s = .ok u) : exec (.predict pc) s = .next (u.setPending true) :=
  exec_predict_eq_next.2 (.inr ⟨checkPredict_none.2 ⟨hi, hp⟩, m, u, hm, hmode ▸ hu, rfl⟩)

/-- A TRAIN that passes its checks answers what the mode's model does, with PENDING cleared. -/
theorem exec_train_of_ok {s u : State} {o : Bit} {m : U32} {mode : Mode} (hi : s.initDone = true)
    (hp : s.pending = true) (hm : s.mode = some m) (hmode : modeOf m = mode)
    (hu : trainIn mode o s = .ok u) : exec (.train o) s = .next (u.setPending false) :=
  exec_train_eq_next.2 (.inr ⟨checkTrain_none.2 ⟨hi, hp⟩, m, u, hm, hmode ▸ hu, rfl⟩)

/-! ### Gshare (R120, R121) -/

/-- The index of R120, as a number. -/
theorem idx_xor_toNat (h pc : U32) (n : Nat) :
    (idx h n ^^^ idx pc n).toNat = (h.toNat % 2 ^ n) ^^^ (pc.toNat % 2 ^ n) := by
  rw [BitVec.toNat_xor, idx_toNat, idx_toNat]

/-- Settles O42: the index of the statement is the one the model makes, so the model's PREDICT
reads the entry named there. -/
theorem gsharePredict_spec : Obligations.GsharePredict := by
  intro s pc h gidx g c hi hp hm hg hh hidx hc
  obtain rfl : gidx = idx h g.toNat ^^^ idx pc g.toNat :=
    BitVec.eq_of_toNat_eq (hidx.trans (idx_xor_toNat h pc g.toNat).symm)
  exact exec_predict_of_ok hi hp hm (modeOf_gshare.2 rfl)
    (gsharePredict_eq_ok.2 ⟨g, h, c, hg, hh, hc, rfl⟩)

/-- Settles O43: training the counter at TOK_GIDX steps that entry alone. -/
theorem gshareTrain_spec : Obligations.GshareTrain := by
  intro s o h gidx g c hi hp hm hg hh htok hc
  obtain ⟨t, htrain, hread⟩ := sctTrain_entry .GPHT o hc
  exact ⟨t, exec_train_of_ok hi hp hm (modeOf_gshare.2 rfl)
    (gshareTrain_eq_ok.2 ⟨g, h, gidx, t, hg, hh, htok, htrain, rfl⟩), hread⟩

/-! ### The bits of pc that PREDICT reads (R120, R140, R170) -/

/-- PREDICT reads pc in the mode's model only. -/
theorem exec_predict_congr {s : State} {pc pc' m : U32} {mode : Mode} (hm : s.mode = some m)
    (hmode : modeOf m = mode) (h : predictIn mode pc s = predictIn mode pc' s) :
    exec (.predict pc) s = exec (.predict pc') s := by
  subst hmode
  simp only [exec, execPredict, hm, need_some, ok_bind, h]

theorem gsharePredict_congr {s : State} {pc pc' : U32} {g : U6} (hg : s.gbits = some g)
    (h : idx pc g.toNat = idx pc' g.toNat) : gsharePredict pc s = gsharePredict pc' s := by
  simp only [gsharePredict, hg, need_some, ok_bind, h]

theorem tournamentPredict_congr {s : State} {pc pc' : U32} {p : U6} (hp : s.pbits = some p)
    (h : idx pc p.toNat = idx pc' p.toNat) : tournamentPredict pc s = tournamentPredict pc' s := by
  simp only [tournamentPredict, hp, need_some, ok_bind, h]

theorem customPredict_congr {s : State} {pc pc' : U32} {p : U6} (hp : s.pbits = some p)
    (h : idx pc p.toNat = idx pc' p.toNat) : customPredict pc s = customPredict pc' s := by
  simp only [customPredict, hp, need_some, ok_bind, h]

/-- Settles O58: each of the three models reads pc through `Idx` only, which is its low bits. -/
theorem highPcBitsHaveNoEffect : Obligations.HighPcBitsHaveNoEffect := by
  intro s pc pc' n hn hlow
  have hidx : idx pc n.toNat = idx pc' n.toNat := idx_congr hlow
  rcases hn with ⟨hm, hg⟩ | ⟨hm | hm, hp⟩
  · exact exec_predict_congr hm (modeOf_gshare.2 rfl) (gsharePredict_congr hg hidx)
  · exact exec_predict_congr hm (modeOf_tournament.2 rfl) (tournamentPredict_congr hp hidx)
  · exact exec_predict_congr hm (modeOf_custom.2 rfl) (customPredict_congr hp hidx)

/-! ### The first prediction after INIT (R122, R144, R170, R205, R206) -/

theorem entryAt_filled {α : Type} {n j : Nat} (v : α) (h : j < 2 ^ n) :
    entryAt (some (Table.filled n v)) j = some v := if_pos h

/-- Lanes of weight 0 add nothing to the sum, whatever the history (R171). -/
theorem percSumFrom_zero_weights (h : U32) (i : Nat) (sum : Int) (k : Nat) :
    percSumFrom h i sum (List.replicate k weightInit) = sum := by
  induction k generalizing i sum with
  | zero => rfl
  | succ k ih =>
    have hw : weightInit.toInt = 0 := rfl
    rw [List.replicate_succ, percSumFrom, ih, hw, add_zero, sub_zero, ite_self]

/-- The sum over a bucket INIT wrote is its bias, 1 (R170). -/
theorem percSum_init (h : U32) (k : Nat) :
    percSum biasInit (List.replicate k weightInit) h = 1 :=
  percSumFrom_zero_weights h 0 biasInit.toInt k

section
variable {s : State} {g p l : U6}

theorem gsharePredict_first (pc : U32) (hg : s.gbits = some g) (hh : s.ghr = some historyInit)
    (ht : s.gpht = some (Table.filled g.toNat counterInit)) :
    ∃ u, gsharePredict pc s = .ok u ∧ u.resp = s.resp ++ [false] :=
  ⟨_, gsharePredict_eq_ok.2 ⟨g, historyInit, counterInit, hg, hh,
    ht ▸ entryAt_filled _ (idx_xor_lt _ _ _), rfl⟩, rfl⟩

theorem tournamentPredict_first (pc : U32) (hg : s.gbits = some g) (hp : s.pbits = some p)
    (hl : s.lbits = some l) (hh : s.ghr = some historyInit)
    (htg : s.tgpt = some (Table.filled g.toNat counterInit))
    (htm : s.tmeta = some (Table.filled g.toNat counterInit))
    (htl : s.tlpt = some (Table.filled l.toNat counterInit))
    (hlht : s.lht = some (Table.filled p.toNat historyInit)) :
    ∃ u, tournamentPredict pc s = .ok u ∧ u.resp = s.resp ++ [false] :=
  ⟨_, tournamentPredict_eq_ok.2 ⟨g, p, l, historyInit, counterInit, historyInit, counterInit,
    counterInit, hg, hp, hl, hh, htm ▸ entryAt_filled _ (idx_lt _ _),
    hlht ▸ entryAt_filled _ (idx_lt _ _), htl ▸ entryAt_filled _ (idx_lt _ _),
    htg ▸ entryAt_filled _ (idx_lt _ _), rfl⟩, rfl⟩

theorem customPredict_first (pc : U32) (hg : s.gbits = some g) (hp : s.pbits = some p)
    (hh : s.ghr = some historyInit) (hb : s.pbias = some (Table.filled p.toNat biasInit))
    (hw : s.pw = some (Table.filled p.toNat (List.replicate g.toNat weightInit))) :
    ∃ u, customPredict pc s = .ok u ∧ u.resp = s.resp ++ [true] := by
  refine ⟨_, customPredict_eq_ok.2 ⟨g, p, historyInit, biasInit, List.replicate g.toNat weightInit,
    hg, hp, hh, hb ▸ entryAt_filled _ (idx_lt _ _), hw ▸ entryAt_filled _ (idx_lt _ _),
    List.length_replicate, rfl⟩, ?_⟩
  rw [percSum_init]
  rfl

end

/-- The state a successful INIT leaves answers PREDICT in every mode, taken in STATIC and CUSTOM
only. -/
theorem predictIn_first (mode : U32) (g p l : U6) (pc : U32) (s : State) :
    ∃ u, predictIn (modeOf mode) pc
        ({ initState mode g p l s with initDone := true }.setPending false) = .ok u ∧
      u.resp = s.resp ++ [decide (modeOf mode = .static ∨ modeOf mode = .custom)] := by
  unfold initState
  cases modeOf mode
  case static => exact ⟨_, rfl, rfl⟩
  case gshare => exact gsharePredict_first pc rfl rfl rfl
  case tournament => exact tournamentPredict_first pc rfl rfl rfl rfl rfl rfl rfl rfl
  case custom => exact customPredict_first pc rfl rfl rfl rfl rfl
  case unrecognized => exact ⟨_, rfl, rfl⟩

/-- Settles O51: INIT with legal widths leaves a state that answers PREDICT, mode by mode. -/
theorem firstPrediction : Obligations.FirstPrediction := by
  intro s mode g p l pc hi hg1 hg2 hp1 hp2 hl1 hl2
  obtain ⟨u, hu, hresp⟩ := predictIn_first mode g p l pc s
  simp only [modeOf_static, modeOf_custom] at hresp
  have hmode : (initState mode g p l s).mode = some mode :=
    congrArg State.mode (initState_frame mode g p l s)
  exact ⟨_, _, exec_init_of_legal mode hi ⟨hg1, hg2⟩ ⟨hp1, hp2⟩ ⟨hl1, hl2⟩,
    exec_predict_of_ok rfl rfl hmode rfl hu, hresp⟩

end Sys2Proof.Machine

namespace Sys2Proof.Machine

/-! ### Tournament (R140, R141, R142) -/

/-- An index given as a remainder is the one `Idx` makes (R102). -/
theorem eq_idx_of_toNat {i v : U32} {n : Nat} (h : i.toNat = v.toNat % 2 ^ n) : i = idx v n :=
  BitVec.eq_of_toNat_eq (h.trans (idx_toNat v n).symm)

/-- Settles O44: the three indices of the statement are the ones the model makes, so the model's
PREDICT reads the four entries named there. -/
theorem tournamentPredict_spec : Obligations.TournamentPredict := by
  intro s pc h gidx pidx lh lidx g p l cm cl cg hi hp hm hg hpb hl hh hgidx hpidx hlh hlidx hcm hcl
    hcg
  obtain rfl : gidx = idx h g.toNat := eq_idx_of_toNat hgidx
  obtain rfl : pidx = idx pc p.toNat := eq_idx_of_toNat hpidx
  obtain rfl : lidx = idx lh l.toNat := eq_idx_of_toNat hlidx
  exact exec_predict_of_ok hi hp hm (modeOf_tournament.2 rfl)
    (tournamentPredict_eq_ok.2
      ⟨g, p, l, h, cm, lh, cl, cg, hg, hpb, hl, hh, hcm, hlh, hcl, hcg, rfl⟩)

/-- The meta counter's step over an entry that reads, stated on the element: toward the one
predictor that was right alone, every other entry as before (R141). -/
theorem metaTrain_entry {o : Option (Table Counter)} {gi : U32} {c : Counter} (lp gp t : Bit)
    (h : entryAt o gi.toNat = some c) :
    ∃ t', metaTrain o gi lp gp t = .ok t' ∧ ∀ j, t'.read j =
      if j = gi.toNat then
        some (if lp = t ∧ gp ≠ t then satInc c else if gp = t ∧ lp ≠ t then satDec c else c)
      else entryAt o j := by
  unfold metaTrain
  split_ifs with hlocal hglobal
  · exact sctTrain_entry .TMETA true h
  · exact sctTrain_entry .TMETA false h
  · obtain ⟨u, rfl, hu⟩ := entryAt_eq_some.1 h
    refine ⟨u, rfl, fun j => ?_⟩
    split_ifs with hj
    · exact hj ▸ hu
    · rfl

/-- Settles O45: each of the four tables is written at its own token index alone. -/
theorem tournamentTrain_spec : Obligations.TournamentTrain := by
  intro s o gp lp h gidx pidx lidx lh g l cm cl cg hi hp hm hg hl hh hgi hpi hli hgp hlp hcg hcl hcm
    hlh
  obtain ⟨tg, htg, hreadg⟩ := sctTrain_entry .TGPT o hcg
  obtain ⟨tl, htl, hreadl⟩ := sctTrain_entry .TLPT o hcl
  obtain ⟨tm, htm, hreadm⟩ := metaTrain_entry lp gp o hcm
  obtain ⟨lt, hlt, hreadh⟩ := tableWrite_entry .LHT (histShift lh o l.toNat) hlh
  exact ⟨tg, tl, tm, lt, exec_train_of_ok hi hp hm (modeOf_tournament.2 rfl)
    (tournamentTrain_eq_ok.2 ⟨g, l, h, gidx, pidx, lidx, gp, lp, tg, tl, tm, lh, lt, hg, hl, hh,
      hgi, hpi, hli, hgp, hlp, htg, htl, htm, hlh, hlt, rfl⟩), hreadg, hreadl, hreadm, hreadh⟩

/-- TOURNAMENT.TRAIN with agreeing predictions writes the meta table back as it reads it (R142). -/
theorem tournamentTrain_tmeta_of_agree {o : Bit} {s u : State} (hagree : s.tokLpred = s.tokGpred)
    (h : tournamentTrain o s = .ok u) : u.tmeta = s.tmeta := by
  obtain ⟨g, l, x, gi, pi, li, gp, lp, tg, tl, tm, lh, lt, -, -, -, -, -, -, hgp, hlp, -, -, htm, -,
    -, rfl⟩ := tournamentTrain_eq_ok.1 h
  obtain rfl : lp = gp := Option.some.inj (hlp.symm.trans (hagree.trans hgp))
  rw [metaTrain_agree, need_eq_ok] at htm
  exact htm.symm

/-- Settles O46: a fault writes FAULT only, and of the models' TRAINs only the tournament's could
change the meta table. -/
theorem metaTieBreak : Obligations.MetaTieBreak := by
  intro s t o hagree hx
  rcases exec_train_eq_next.1 hx with ⟨k, -, rfl⟩ | ⟨-, m, u, -, hu, rfl⟩
  · rfl
  · change u.tmeta = s.tmeta
    by_contra hne
    obtain ⟨-, htournament, -⟩ := trainIn_tables hu
    rw [htournament (.inr (.inr (.inl hne)))] at hu
    exact hne (tournamentTrain_tmeta_of_agree hagree hu)

end Sys2Proof.Machine

namespace Sys2Proof.Machine

/-! ### A pending token stays fresh (R140, R170, R182, D27) -/

/-- TOURNAMENT.PREDICT makes the token from the GHR and the tables it leaves in place (R140). -/
theorem tournamentPredict_fresh {pc : U32} {s u : State} (h : tournamentPredict pc s = .ok u) :
    TournamentTokenFresh (u.setPending true) := by
  obtain ⟨g, p, l, x, cm, lh, cl, cg, hg, -, hl, hx, -, hlh, hcl, hcg, rfl⟩ :=
    tournamentPredict_eq_ok.1 h
  simp [TournamentTokenFresh, hg, hl, hx, hlh, hcl, hcg]

/-- CUSTOM.PREDICT makes the sum from the GHR and the bucket it leaves in place (R170). -/
theorem customPredict_fresh {pc : U32} {s u : State} (h : customPredict pc s = .ok u) :
    CustomTokenFresh (u.setPending true) := by
  obtain ⟨g, p, x, bias, ws, -, -, hx, hb, hws, -, rfl⟩ := customPredict_eq_ok.1 h
  simp [CustomTokenFresh, hx, hb, hws]

/-- The freshness of a state with no branch pending asks nothing. -/
theorem tokenFresh_of_not_pending {s : State} (h : s.pending = false) : TokenFresh s :=
  fun _ hp => absurd (h.symm.trans hp) (by decide)

/-- A PREDICT leaves a fresh token, whatever the token was before. -/
theorem tokenFresh_predict {s u : State} {pc m : U32} (hm : s.mode = some m)
    (hu : predictIn (modeOf m) pc s = .ok u) : TokenFresh (u.setPending true) := by
  obtain ⟨b, hframe⟩ := predictIn_frame hu
  have hmode : u.mode = some m := (congrArg State.mode hframe :).trans hm
  have hactive {n : Mode} (h : (u.setPending true).mode.map modeOf = some n) :
      predictIn n pc s = .ok u := by
    rw [State.setPending_mode, hmode] at h
    exact Option.some.inj h ▸ hu
  exact fun _ _ => ⟨fun h => tournamentPredict_fresh (hactive h),
    fun h => customPredict_fresh (hactive h)⟩

/-- Settles O55: a step with a branch still pending either wrote neither the token nor what it was
made from, or is the PREDICT that made it. -/
theorem stepKeepsTokenFresh : Obligations.StepKeepsTokenFresh := by
  intro s t h hs
  rcases step_eq_next.1 hs with ⟨-, rfl⟩ | ⟨rest, -, rfl⟩ | ⟨w, rest, hin, -⟩
  · exact h
  · exact tokenFresh_of_not_pending rfl
  · rcases command_step_cases hin hs with ⟨-, rfl⟩ | ⟨-, k, rfl⟩ |
      ⟨-, -, mode, g, p, l, -, -, -, -, rfl⟩ | ⟨-, -, -, pc, m, u, -, hm, hu, rfl⟩ |
      ⟨-, -, -, o, m, u, -, -, -, rfl⟩
    · exact h
    · exact h
    · exact tokenFresh_of_not_pending rfl
    · exact tokenFresh_predict (s := s.withInputs rest) hm hu
    · exact tokenFresh_of_not_pending rfl

/-! ### The perceptron's sum and gate (R171, R173, R181) -/

/-- A history bit as +1 or -1 (R171). -/
def histSign (h : U32) (i : Nat) : Int := 2 * ((h.getLsbD i).toNat : Int) - 1

/-- The loop's step adds the weight with the history bit's sign. -/
theorem percSumFrom_cons (h : U32) (i : Nat) (sum : Int) (w : Weight) (ws : List Weight) :
    percSumFrom h i sum (w :: ws) = percSumFrom h (i + 1) (sum + histSign h i * w.toInt) ws := by
  rw [percSumFrom, histBit, histSign]
  cases h.getLsbD i
  · simp [← sub_eq_add_neg]
  · simp

/-- The loop from lane `i` on adds the dot product of the lanes from `i` on. -/
theorem percSumFrom_eq_sum (h : U32) (i : Nat) (sum : Int) (ws : List Weight) :
    percSumFrom h i sum ws =
      sum + ∑ k ∈ Finset.range ws.length, histSign h (i + k) * (ws.getD k 0#8).toInt := by
  induction ws generalizing i sum with
  | nil => simp [percSumFrom]
  | cons w ws ih =>
    rw [percSumFrom_cons, ih, List.length_cons, Finset.sum_range_succ']
    simp only [List.getD_cons_succ, List.getD_cons_zero, Nat.add_zero, Nat.add_assoc,
      Nat.add_comm 1]
    ring

/-- Settles O30: the loop from lane 0, started at the bias. -/
theorem perceptronSumIsDotProduct : Obligations.PerceptronSumIsDotProduct := by
  intro bias ws h
  rw [percSum, percSumFrom_eq_sum]
  simp only [histSign, Nat.zero_add]

/-- Settles O31: the bound of R173, and that 32 bits hold what meets it. -/
theorem perceptronSumFits : Obligations.PerceptronSumFits := fun _ _ h hbias hws hlen =>
  ⟨percSum_abs_le hbias hws h, percSum_toInt hbias hws hlen h⟩

theorem abs_toInt_le (x : Weight) : |x.toInt| ≤ 128 :=
  abs_le.2 ⟨BitVec.le_toInt x, (BitVec.toInt_lt (x := x)).le⟩

theorem abs_histSign (h : U32) (i : Nat) : |histSign h i| = 1 := by
  rw [histSign]
  cases h.getLsbD i <;> rfl

/-- The sum of any s8 weights, those out of a weight's range included. -/
theorem abs_percSum_le (bias : Weight) (ws : List Weight) (h : U32) :
    |percSum bias ws h| ≤ 128 + 128 * ws.length := by
  have hlanes : ∀ k ∈ Finset.range ws.length,
      |histSign h (0 + k) * (ws.getD k 0#8).toInt| ≤ 128 := fun k _ => by
    rw [abs_mul, abs_histSign, one_mul]
    exact abs_toInt_le _
  have hsum := (Finset.abs_sum_le_sum_abs _ _).trans (Finset.sum_le_card_nsmul _ _ _ hlanes)
  rw [Finset.card_range, nsmul_eq_mul, mul_comm] at hsum
  rw [percSum, percSumFrom_eq_sum]
  exact (abs_add_le _ _).trans (add_le_add (abs_toInt_le bias) hsum)

/-- TOK_SUM holds exactly the sum over any row whose length a GBITS can give. -/
theorem percSum_toInt_of_length_lt (bias : Weight) {ws : List Weight} (hlen : ws.length < 64)
    (h : U32) : (BitVec.ofInt 32 (percSum bias ws h)).toInt = percSum bias ws h := by
  have hle := abs_le.1 (abs_percSum_le bias ws h)
  exact BitVec.toInt_ofInt_eq_self (by decide) (by norm_num; omega) (by norm_num; omega)

/-- Settles O32: a sum of 0 counts as taken, and a sign other than the outcome's is one of the two
mispredictions. -/
theorem trainingGate : Obligations.TrainingGate := by
  intro sum t theta
  rw [percGate_iff, ← or_assoc]
  refine or_congr_left ?_
  cases t <;> simp

/-! ### CUSTOM.PREDICT and CUSTOM.TRAIN (R170, R180) -/

/-- Settles O47: the bucket of the statement is the one the model makes, and its row is short enough
for 32 bits to hold the sum. -/
theorem customPredict_spec : Obligations.CustomPredict := by
  intro s pc h b g p bias ws hi hp hm hg hpb hh hb hbias hws hlen
  obtain rfl : b = idx pc p.toNat := eq_idx_of_toNat hb
  exact ⟨_, exec_predict_of_ok hi hp hm (modeOf_custom.2 rfl)
    (customPredict_eq_ok.2 ⟨g, p, h, bias, ws, hg, hpb, hh, hbias, hws, hlen, rfl⟩),
    percSum_toInt_of_length_lt bias (hlen ▸ g.isLt) h⟩

/-- The gate stays closed exactly on a correct prediction with a magnitude above theta (R181). -/
theorem percGate_eq_false_iff {sum : Int} {t : Bit} {theta : Int} :
    percGate sum t theta = false ↔ decide (0 ≤ sum) = t ∧ theta < |sum| := by
  rw [← Bool.not_eq_true, percGate_iff, not_or, not_not, not_le]

/-- The lanes of a trained row: up where the history bit equals the outcome, down where it does
not (R180). -/
theorem trainLanes_getElem?_eq (h : U32) (t : Bit) (ws : List Weight) (k : Nat) :
    (trainLanes h t ws)[k]? = ws[k]?.map fun w => if h.getLsbD k = t then wInc w else wDec w := by
  rw [trainLanes_getElem?]
  congr 1
  funext w
  simp only [wStep, histBit, beq_iff_eq]

/-- PW after a write of a whole row (R52). -/
theorem weightAt_write_row {tw : Table (List Weight)} {o : Option (Table (List Weight))} {b : Nat}
    {row : List Weight} (hread : ∀ j, tw.read j = if j = b then some row else entryAt o j)
    (j k : Nat) : weightAt (some tw) j k = if j = b then row[k]? else weightAt o j k := by
  simp only [weightAt, entryAt, Option.bind_some, hread]
  split_ifs <;> rfl

/-- Settles O48: the gate of the statement is the model's, and behind it each of the two tables is
written at TOK_PIDX alone. -/
theorem customTrain_spec : Obligations.CustomTrain := by
  intro s o h b g theta x bias ws hi hp hm hg hh hth hb hx hbias hws hlen
  have htrain {u : State} := exec_train_of_ok (u := u) (o := o) hi hp hm (modeOf_custom.2 rfl)
  refine ⟨fun hclosed => htrain (customTrain_eq_ok.2 ⟨g, h, theta, b, x, hg, hh, hth, hb, hx,
    .inl ⟨percGate_eq_false_iff.2 hclosed, rfl⟩⟩), fun hopen => ?_⟩
  have hgate : percGate x.toInt o theta = true :=
    Bool.of_not_eq_false (mt percGate_eq_false_iff.1 hopen)
  obtain ⟨tb, htb, hreadb⟩ := tableWrite_entry .PBIAS (wStep o bias) hbias
  obtain ⟨tw, htw, hreadw⟩ := tableWrite_entry .PW (trainLanes h o ws) hws
  have hupdate := customUpdate_eq_ok.2 ⟨bias, tb, ws, tw, hbias, htb, hws, hlen, htw, rfl⟩
  refine ⟨tb, tw, htrain (customTrain_eq_ok.2 ⟨g, h, theta, b, x, hg, hh, hth, hb, hx,
    .inr ⟨hgate, _, hupdate, rfl⟩⟩), hreadb, fun j k => ?_⟩
  rw [weightAt_write_row hreadw, trainLanes_getElem?_eq]

end Sys2Proof.Machine

namespace Sys2Proof.Machine

/-! ### Commands turned away by a check (R232) -/

section
variable {s : State}

theorem exec_init_of_initDone (mode : U32) (g p l : U6) (hi : s.initDone = true) :
    exec (.init mode g p l) s = .next (s.raise .alreadyInitialized) :=
  exec_init_eq_next.2 (.inl ⟨_, by simp [checkInit, hi], rfl⟩)

theorem exec_predict_of_pending (pc : U32) (hi : s.initDone = true) (hp : s.pending = true) :
    exec (.predict pc) s = .next (s.raise .predictPending) :=
  exec_predict_eq_next.2 (.inl ⟨_, by simp [checkPredict, hi, hp], rfl⟩)

theorem exec_train_of_not_pending (o : Bit) (hi : s.initDone = true) (hp : s.pending = false) :
    exec (.train o) s = .next (s.raise .noPredict) :=
  exec_train_eq_next.2 (.inl ⟨_, by simp [checkTrain, hi, hp], rfl⟩)

end

/-! ### The configuration between resets (R21, R22, R207) -/

/-- MODE, GBITS, PBITS, LBITS and THETA are the same in both states. -/
abbrev SameConfig (s t : State) : Prop :=
  t.mode = s.mode ∧ t.gbits = s.gbits ∧ t.pbits = s.pbits ∧ t.lbits = s.lbits ∧ t.theta = s.theta

/-- Of what a step on a word can do, only a successful INIT writes the configuration. -/
theorem command_step_config {s t : State} {w : CommandWord} {rest : List Input}
    (h : s.inputs = .command w :: rest) (hs : step s = .next t) :
    SameConfig s t ∨ (s.initDone = false ∧ t.initDone = true ∧
      ∃ mode g p l, decode w = .ok (.init mode g p l) ∧ t.mode = some mode) := by
  rcases command_step_cases h hs with ⟨-, rfl⟩ | ⟨-, k, rfl⟩ |
    ⟨-, hi, mode, g, p, l, hd, -, -, -, rfl⟩ | ⟨-, -, -, pc, m, u, -, -, hu, rfl⟩ |
    ⟨-, -, -, o, m, u, -, -, hu, rfl⟩
  · exact .inl ⟨rfl, rfl, rfl, rfl, rfl⟩
  · exact .inl ⟨rfl, rfl, rfl, rfl, rfl⟩
  · have hmode := congrArg State.mode (initState_frame mode g p l (s.withInputs rest))
    exact .inr ⟨hi, rfl, mode, g, p, l, hd, hmode⟩
  · obtain ⟨b, hframe⟩ := predictIn_frame hu
    rw [hframe]
    exact .inl ⟨rfl, rfl, rfl, rfl, rfl⟩
  · rw [trainIn_frame hu]
    exact .inl ⟨rfl, rfl, rfl, rfl, rfl⟩

/-- Settles O21: the one command that writes the configuration is an INIT that succeeds, and an
initialized block turns every INIT away. -/
theorem configurationNeverChanges : Obligations.ConfigurationNeverChanges := by
  intro s t w rest hin hs
  have hconfig := command_step_config hin hs
  refine ⟨fun hi => hconfig.resolve_right fun ⟨hi', _⟩ => ?_, ?_,
    fun hne => hconfig.resolve_left fun ⟨hmode, _⟩ => hne hmode⟩
  · exact absurd (hi.symm.trans hi') (by decide)
  · rintro hi hf ⟨mode, g, p, l, hd⟩
    have hraise := exec_init_of_initDone (s := s.withInputs rest) mode g p l hi
    rw [step_of_command hin, perform_of_decode (s := s.withInputs rest) hf hd, hraise] at hs
    cases hs
    rfl

/-! ### INIT (R202) -/

/-- A bucket of the PW that INIT wrote has weight 0 in each of its lanes (R34, R202). -/
theorem weightAt_filled (n g : Nat) (v : Weight) (b i : Nat) :
    weightAt (some (Table.filled n (List.replicate g v))) b i =
      if b < 2 ^ n ∧ i < g then some v else none := by
  by_cases hb : b < 2 ^ n <;>
    simp [weightAt, entryAt, hb, List.getElem?_replicate]

/-- What a mode does not have INIT leaves as it is (R35, R202). -/
theorem initState_unowned (mode : U32) (g p l : U6) (s : State) :
    let t := initState mode g p l s
    (mode ≠ modeValue .GSHARE → t.gpht = s.gpht) ∧
    (mode ≠ modeValue .TOURNAMENT →
      t.tgpt = s.tgpt ∧ t.tlpt = s.tlpt ∧ t.tmeta = s.tmeta ∧ t.lht = s.lht) ∧
    (mode ≠ modeValue .CUSTOM → t.theta = s.theta ∧ t.pbias = s.pbias ∧ t.pw = s.pw) ∧
    (mode ≠ modeValue .GSHARE → mode ≠ modeValue .TOURNAMENT → mode ≠ modeValue .CUSTOM →
      t.ghr = s.ghr) := by
  simp only [ne_eq, ← modeOf_gshare, ← modeOf_tournament, ← modeOf_custom]
  unfold initState
  cases modeOf mode <;> simp

/-- Settles O37: the frame of INIT, then each mode's own elements as its arm writes them, and the
elements a mode does not have. -/
theorem initWritesModeState : Obligations.InitWritesModeState := by
  intro s mode g p l hi hg1 hg2 hp1 hp2 hl1 hl2
  obtain ⟨hgshare, htournament, hcustom, hghr⟩ := initState_unowned mode g p l s
  refine ⟨_, exec_init_of_legal mode hi ⟨hg1, hg2⟩ ⟨hp1, hp2⟩ ⟨hl1, hl2⟩, ?_, ?_, hgshare, ?_,
    htournament, ?_, hcustom, hghr⟩
  · exact congrArg (fun u : State => { u with initDone := true, pending := false })
      (initState_frame mode g p l s)
  · rintro rfl
    exact ⟨rfl, fun _ => rfl⟩
  · rintro rfl
    exact ⟨rfl, fun _ => rfl, fun _ => rfl, fun _ => rfl, fun _ => rfl⟩
  · rintro rfl
    obtain ⟨th, hth⟩ := Option.isSome_iff_exists.1 (thetaFn_isSome s.thetaFn hg2)
    exact ⟨rfl, ⟨th, hth, hth⟩, fun _ => rfl, weightAt_filled p.toNat g.toNat weightInit⟩

/-! ### STATIC and the unrecognized modes (R205, R206) -/

/-- Settles O40: the model answers true and trains nothing, and the two checks on PENDING turn the
other command away. -/
theorem staticMode : Obligations.StaticMode := by
  intro s hi hm
  have hmode : modeOf (modeValue .STATIC) = .static := modeOf_static.2 rfl
  exact ⟨fun hp => ⟨fun _ => exec_predict_of_ok hi hp hm hmode rfl,
      fun o => exec_train_of_not_pending o hi hp⟩,
    fun hp => ⟨fun _ => exec_train_of_ok hi hp hm hmode rfl,
      fun pc => exec_predict_of_pending pc hi hp⟩⟩

/-- Settles O41: a mode with no name runs the unrecognized model, which answers false and trains
nothing. -/
theorem unrecognizedMode : Obligations.UnrecognizedMode := by
  intro s m hi hm hname
  have hmode : modeOf m = .unrecognized := modeOf_unnamed.2 hname
  exact ⟨fun hp _ => exec_predict_of_ok hi hp hm hmode rfl,
    fun hp _ => exec_train_of_ok hi hp hm hmode rfl⟩

/-! ### PREDICT and TRAIN complete in every mode (R203, R204) -/

/-- Settles O49: the invariant answers every command, the checks pass, and what is left is the
frame of PREDICT. -/
theorem predictCompletes : Obligations.PredictCompletes := by
  intro s pc h hi hp
  obtain ⟨t, ht⟩ := exec_completes h (.predict pc)
  rcases exec_predict_eq_next.1 ht with ⟨k, hk, -⟩ | ⟨-, m, u, -, hu, rfl⟩
  · cases hk.symm.trans (checkPredict_none.2 ⟨hi, hp⟩)
  · obtain ⟨b, hframe⟩ := predictIn_frame hu
    exact ⟨_, b, ht, congrArg (State.setPending · true) hframe⟩

/-- The modes without a model have no history (R35). -/
theorem BlockInv.ghr_eq_none {s : State} {m : U32} (h : BlockInv s) (hi : s.initDone = true)
    (hm : s.mode = some m) (hmode : modeOf m = .static ∨ modeOf m = .unrecognized) :
    s.ghr = none := by
  obtain ⟨-, -, hrun⟩ := h
  obtain ⟨m', g, p, l, hm', -, -, -, -, -, -, htableless, -⟩ := Running_iff.1 (hrun hi)
  cases hm.symm.trans hm'
  obtain ⟨hghr, -⟩ := htableless hmode
  exact hghr

/-- Every model's TRAIN shifts the outcome into GHR (R121, R141, R180). -/
theorem trainIn_ghr {m : Mode} {o : Bit} {s u : State} {g : U6} (hg : s.gbits = some g)
    (hnone : m = .static ∨ m = .unrecognized → s.ghr = none) (h : trainIn m o s = .ok u) :
    u.ghr = s.ghr.map fun x => histShift x o g.toNat := by
  cases m
  case static =>
    cases h
    simp [hnone]
  case unrecognized =>
    cases h
    simp [hnone]
  case gshare =>
    obtain ⟨g', x, _, _, hg', hx, -, -, rfl⟩ := gshareTrain_eq_ok.1 h
    cases hg.symm.trans hg'
    simp [hx]
  case tournament =>
    obtain ⟨g', _, x, _, _, _, _, _, _, _, _, _, _, hg', -, hx, -, -, -, -, -, -, -, -, -, -, rfl⟩ :=
      tournamentTrain_eq_ok.1 h
    cases hg.symm.trans hg'
    simp [hx]
  case custom =>
    obtain ⟨g', x, _, _, _, hg', hx, -, -, -, ⟨-, rfl⟩ | ⟨-, _, -, rfl⟩⟩ := customTrain_eq_ok.1 h
    all_goals
      cases hg.symm.trans hg'
      simp [hx]

/-- Settles O50: the invariant answers every command, the checks pass, and what is left is the
frame of TRAIN with the shift of GHR. -/
theorem trainCompletes : Obligations.TrainCompletes := by
  intro s o g h hi hp hg
  obtain ⟨t, ht⟩ := exec_completes h (.train o)
  rcases exec_train_eq_next.1 ht with ⟨k, hk, -⟩ | ⟨-, m, u, hm, hu, rfl⟩
  · cases hk.symm.trans (checkTrain_none.2 ⟨hi, hp⟩)
  · have hframe := trainIn_frame hu
    rw [trainIn_ghr hg (h.ghr_eq_none hi hm) hu] at hframe
    exact ⟨_, ht, congrArg (State.setPending · false) hframe⟩

end Sys2Proof.Machine

namespace Sys2Proof.Machine

/-! ### Idle steps, resets and faulted blocks (R233, R234, R235, R237) -/

/-- A step with a reset at the head of the port takes it (R260). -/
theorem step_of_reset {s : State} {rest : List Input} (h : s.inputs = .reset :: rest) :
    step s = .next (s.takeReset rest) := step_eq_next.2 (.inr (.inl ⟨rest, h, rfl⟩))

/-- A faulted block takes a word off the port and does nothing with it (R233). -/
theorem step_of_faulted {s : State} {w : CommandWord} {rest : List Input} (hf : s.fault ≠ 0#3)
    (h : s.inputs = .command w :: rest) : step s = .next (s.withInputs rest) := by
  have hf' : (s.withInputs rest).fault ≠ 0#3 := hf
  rw [step_of_command h, perform_of_faulted hf']

theorem run_one (s : State) : run 1 s = step s := by
  rw [run_succ]
  cases step s <;> rfl

/-- Settles O10: it is the first of the three things a step can do. -/
theorem idleStepChangesNothing : Obligations.IdleStepChangesNothing :=
  fun _ hin => step_eq_next.2 (.inl ⟨hin, rfl⟩)

/-- Settles O11: a word is taken and ignored, a reset writes FAULT, and a good end asks for no
fault. -/
theorem faultedBlockIgnoresCommands : Obligations.FaultedBlockIgnoresCommands := by
  refine fun s hf => ⟨fun w rest hin => step_of_faulted hf hin,
    fun rest hin => ⟨_, step_of_reset hin, s.takeReset_fault rest⟩, ?_⟩
  rintro ⟨-, hnone, -⟩
  exact hf hnone

/-- Settles O12, by induction on the words: each is ignored, and the state that has given it up is
as faulted as before. -/
theorem faultedBlockStaysFaulted : Obligations.FaultedBlockStaysFaulted := by
  intro s ws hf hin
  induction ws generalizing s with
  | nil =>
    have hs : s = s.withInputs [] := congrArg s.withInputs hin
    exact congrArg Host.Outcome.next hs
  | cons w ws ih =>
    calc run (ws.length + 1) s
      _ = run ws.length (s.withInputs (ws.map .command)) := run_of_step (step_of_faulted hf hin) _
      _ = .next (s.withInputs []) := ih (s.withInputs (ws.map .command)) hf rfl

/-- Settles O14: the first step takes the reset, and the second performs the word on what the reset
left. -/
theorem resetTakesEffectBeforeCommand : Obligations.ResetTakesEffectBeforeCommand := by
  intro s w rest hin
  have hword : (s.takeReset (.command w :: rest)).inputs = .command w :: rest := rfl
  calc run 2 s
    _ = run 1 (s.takeReset (.command w :: rest)) := run_of_step (step_of_reset hin) 1
    _ = step (s.takeReset (.command w :: rest)) := run_one _
    _ = perform w (s.takeReset rest) := step_of_command hword

/-! ### The checks in order, and precise faults (R231, R232) -/

section
variable {s : State}

theorem perform_of_illegal {w : CommandWord} {e : Illegal} (hf : s.fault = 0#3)
    (hd : decode w = .error e) : perform w s = .next (s.raise .illegalCommand) :=
  perform_eq_next.2 (.inr (.inl ⟨hf, e, hd, rfl⟩))

/-- The three width checks of INIT together (R21). -/
theorem legalWidths_iff (g p l : U6) :
    (legalWidth g && legalWidth p && legalWidth l) = true ↔
      1 ≤ g.toNat ∧ g.toNat ≤ 32 ∧ 1 ≤ p.toNat ∧ p.toNat ≤ 32 ∧ 1 ≤ l.toNat ∧ l.toNat ≤ 32 := by
  simp only [Bool.and_eq_true, legalWidth_iff, and_assoc]

theorem exec_init_of_bad_width (mode : U32) {g p l : U6} (hi : s.initDone = false)
    (hw : (legalWidth g && legalWidth p && legalWidth l) = false) :
    exec (.init mode g p l) s = .next (s.raise .badConfig) :=
  exec_init_eq_next.2 (.inl ⟨_, by simp [checkInit, hi, hw], rfl⟩)

theorem exec_predict_of_not_initDone (pc : U32) (hi : s.initDone = false) :
    exec (.predict pc) s = .next (s.raise .notInitialized) :=
  exec_predict_eq_next.2 (.inl ⟨_, by simp [checkPredict, hi], rfl⟩)

theorem exec_train_of_not_initDone (o : Bit) (hi : s.initDone = false) :
    exec (.train o) s = .next (s.raise .notInitialized) :=
  exec_train_eq_next.2 (.inl ⟨_, by simp [checkTrain, hi], rfl⟩)

@[simp] theorem initState_fault (mode : U32) (g p l : U6) :
    (initState mode g p l s).fault = s.fault :=
  (congrArg State.fault (initState_frame mode g p l s) :)

variable {u : State} {m : Mode}

theorem predictIn_fault {pc : U32} (h : predictIn m pc s = .ok u) : u.fault = s.fault := by
  obtain ⟨b, hframe⟩ := predictIn_frame h
  exact (congrArg State.fault hframe :)

theorem trainIn_fault {o : Bit} (h : trainIn m o s = .ok u) : u.fault = s.fault :=
  (congrArg State.fault (trainIn_frame h) :)

/-- A PREDICT that passes its checks raises no fault (R203, R232). -/
theorem exec_predict_keeps_fault {t : State} {pc : U32} (hi : s.initDone = true)
    (hp : s.pending = false) (h : exec (.predict pc) s = .next t) : t.fault = s.fault := by
  rcases exec_predict_eq_next.1 h with ⟨k, hk, -⟩ | ⟨-, _, u, -, hu, rfl⟩
  · cases hk.symm.trans (checkPredict_none.2 ⟨hi, hp⟩)
  · exact (predictIn_fault hu :)

/-- A TRAIN that passes its checks raises no fault (R204, R232). -/
theorem exec_train_keeps_fault {t : State} {o : Bit} (hi : s.initDone = true)
    (hp : s.pending = true) (h : exec (.train o) s = .next t) : t.fault = s.fault := by
  rcases exec_train_eq_next.1 h with ⟨k, hk, -⟩ | ⟨-, _, u, -, hu, rfl⟩
  · cases hk.symm.trans (checkTrain_none.2 ⟨hi, hp⟩)
  · exact (trainIn_fault hu :)

end

/-- Settles O16: the word's checks first, then each command's, a failed one by what it raises and
a passed command by what it leaves of FAULT. -/
theorem checksInOrder : Obligations.ChecksInOrder := by
  refine fun s => ⟨fun w hf => perform_of_faulted hf w, fun w e hf hd => perform_of_illegal hf hd,
    fun w i hf hd => perform_of_decode hf hd,
    fun mode g p l => ⟨exec_init_of_initDone mode g p l, fun hi hw => ?_,
      fun hi hg hg' hp hp' hl hl' => ?_⟩,
    fun pc => ⟨exec_predict_of_not_initDone pc, exec_predict_of_pending pc,
      fun hi hp t => exec_predict_keeps_fault hi hp⟩,
    fun o => ⟨exec_train_of_not_initDone o, exec_train_of_not_pending o,
      fun hi hp t => exec_train_keeps_fault hi hp⟩⟩
  · rw [← legalWidths_iff, Bool.not_eq_true] at hw
    exact exec_init_of_bad_width mode hi hw
  · exact ⟨_, exec_init_of_legal mode hi ⟨hg, hg'⟩ ⟨hp, hp'⟩ ⟨hl, hl'⟩, initState_fault mode g p l⟩

/-- Settles O17: of what a step on a word can do, only a raise writes FAULT, and it writes nothing
else. -/
theorem faultsArePrecise : Obligations.FaultsArePrecise := by
  intro s t w rest hin hs hne
  rcases command_step_cases hin hs with ⟨-, rfl⟩ | ⟨-, k, rfl⟩ |
    ⟨-, -, mode, g, p, l, -, -, -, -, rfl⟩ | ⟨-, -, -, pc, m, u, -, -, hu, rfl⟩ |
    ⟨-, -, -, o, m, u, -, -, hu, rfl⟩
  · exact absurd rfl hne
  · rfl
  · exact absurd (initState_fault mode g p l) hne
  · exact absurd (predictIn_fault hu) hne
  · exact absurd (trainIn_fault hu) hne

end Sys2Proof.Machine

namespace Sys2Proof.Machine

/-! ### What a reset leaves, and what succeeds after it (R260, R261, R262) -/

/-- Settles O13: the step takes the reset, and each field of the state it leaves is known. -/
theorem resetLeavesNothing : Obligations.ResetLeavesNothing :=
  fun _ _ hin => ⟨_, step_of_reset hin, by simp⟩

/-- Settles O52: the reset state is what a reset leaves of itself. -/
theorem resetMeetsInvariant : Obligations.ResetMeetsInvariant := by
  have hreset : State.reset.takeReset [] = State.reset := rfl
  have hinv := blockInv_takeReset State.reset []
  rwa [hreset] at hinv

/-- A raise leaves the block faulted (R230, R231). -/
theorem raise_fault_ne_none (s : State) (k : FaultCode) : (s.raise k).fault ≠ 0#3 :=
  faultBits_ne_none k

/-- Before INIT every command is answered, and all but an INIT with legal widths raise (R232). -/
theorem exec_before_init {s : State} (hf : s.fault = 0#3) (hi : s.initDone = false) (i : Instr) :
    ∃ t, exec i s = .next t ∧ (t.fault = 0#3 ↔ ∃ mode g p l, i = .init mode g p l ∧
      1 ≤ g.toNat ∧ g.toNat ≤ 32 ∧ 1 ≤ p.toNat ∧ p.toNat ≤ 32 ∧ 1 ≤ l.toNat ∧ l.toNat ≤ 32) := by
  cases i with
  | init mode g p l =>
    cases hw : legalWidth g && legalWidth p && legalWidth l with
    | false =>
      refine ⟨_, exec_init_of_bad_width mode hi hw, iff_of_false (raise_fault_ne_none _ _) ?_⟩
      rintro ⟨_, _, _, _, heq, hlegal⟩
      cases heq
      exact absurd ((legalWidths_iff g p l).2 hlegal) (by simp [hw])
    | true =>
      have hlegal := (legalWidths_iff g p l).1 hw
      have ⟨hg, hg', hp, hp', hl, hl'⟩ := hlegal
      exact ⟨_, exec_init_of_legal mode hi ⟨hg, hg'⟩ ⟨hp, hp'⟩ ⟨hl, hl'⟩,
        iff_of_true ((initState_fault mode g p l).trans hf) ⟨mode, g, p, l, rfl, hlegal⟩⟩
  | predict pc =>
    exact ⟨_, exec_predict_of_not_initDone pc hi,
      iff_of_false (raise_fault_ne_none _ _) fun ⟨_, _, _, _, heq, _⟩ => nomatch heq⟩
  | train o =>
    exact ⟨_, exec_train_of_not_initDone o hi,
      iff_of_false (raise_fault_ne_none _ _) fun ⟨_, _, _, _, heq, _⟩ => nomatch heq⟩

/-- Settles O15: an illegal word raises, and a legal one is a command before INIT. -/
theorem onlyInitSucceedsAfterReset : Obligations.OnlyInitSucceedsAfterReset := by
  intro f rest w
  cases hd : decode w with
  | error e =>
    exact ⟨_, perform_of_illegal rfl hd,
      iff_of_false (raise_fault_ne_none _ _) fun ⟨_, _, _, _, heq, _⟩ => nomatch heq⟩
  | ok i =>
    obtain ⟨t, ht, hclean⟩ :=
      exec_before_init (s := { State.reset with thetaFn := f, inputs := rest }) rfl rfl i
    exact ⟨t, (perform_of_decode rfl hd).trans ht, by simpa only [Except.ok.injEq] using hclean⟩

/-! ### The predict-then-train contract (R263, R265, R269) -/

/-- An initialized, unfaulted block that meets the invariant, with PENDING as given: what the
contract keeps, with PENDING 0 between two branches and 1 between a PREDICT and its TRAIN. -/
structure InContract (s : State) (pending : Bit) : Prop where
  inv : BlockInv s
  initDone : s.initDone = true
  pending : s.pending = pending
  fault : s.fault = 0#3

/-- The block runs the command at the head of the port, and the invariant holds after it. -/
theorem InContract.step_of_exec {s t : State} {pending : Bit} {i : Instr} {rest : List Input}
    (h : InContract s pending) (hin : s.inputs = .command (encode i) :: rest)
    (ht : exec i (s.withInputs rest) = .next t) : step s = .next t ∧ BlockInv t := by
  have hs := (stepRunsDecodedCommand s (encode i) rest i hin h.fault (decode_encode i)).trans ht
  exact ⟨hs, stepKeepsInvariant s t h.inv hs⟩

/-- A PREDICT between two branches leaves its branch pending, with one more response (R203). -/
theorem InContract.step_predict {s : State} {pc : U32} {rest : List Input}
    (h : InContract s false) (hin : s.inputs = .command (encode (.predict pc)) :: rest) :
    ∃ t b, step s = .next t ∧ InContract t true ∧ t.inputs = rest ∧ t.resp = s.resp ++ [b] ∧
      t.mode = s.mode := by
  obtain ⟨t, b, ht, hframe⟩ :=
    predictCompletes (s.withInputs rest) pc (BlockInv_withInputs.2 h.inv) h.initDone h.pending
  obtain ⟨hs, hinv⟩ := h.step_of_exec hin ht
  exact ⟨t, b, hs, ⟨hinv, (congrArg State.initDone hframe :).trans h.initDone,
      (congrArg State.pending hframe :), (congrArg State.fault hframe :).trans h.fault⟩,
    (congrArg State.inputs hframe :), (congrArg State.resp hframe :),
    (congrArg State.mode hframe :)⟩

/-- The TRAIN of a pending branch ends the branch, with no response (R204). -/
theorem InContract.step_train {s : State} {o : Bit} {rest : List Input}
    (h : InContract s true) (hin : s.inputs = .command (encode (.train o)) :: rest) :
    ∃ t, step s = .next t ∧ InContract t false ∧ t.inputs = rest ∧ t.resp = s.resp ∧
      t.mode = s.mode := by
  obtain ⟨-, -, hrun⟩ := h.inv
  obtain ⟨-, g, -, -, -, hg, -⟩ := Running_iff.1 (hrun h.initDone)
  obtain ⟨t, ht, hframe⟩ :=
    trainCompletes (s.withInputs rest) o g (BlockInv_withInputs.2 h.inv) h.initDone h.pending hg
  obtain ⟨hs, hinv⟩ := h.step_of_exec hin ht
  exact ⟨t, hs, ⟨hinv, (congrArg State.initDone hframe :).trans h.initDone,
      (congrArg State.pending hframe :), (congrArg State.fault hframe :).trans h.fault⟩,
    (congrArg State.inputs hframe :), (congrArg State.resp hframe :),
    (congrArg State.mode hframe :)⟩

/-- The branches of a list, one after the other: each is predicted, then trained, and the next one
finds the block between two branches again. -/
theorem InContract.run_branches {s : State} {bs : List (U32 × Bit)} (h : InContract s false)
    (hin : s.inputs = branchInputs bs) :
    ∃ t rs, run (2 * bs.length) s = .next t ∧ InContract t false ∧ t.inputs = [] ∧
      t.resp = s.resp ++ rs ∧ rs.length = bs.length ∧ t.mode = s.mode := by
  induction bs generalizing s with
  | nil => exact ⟨s, [], rfl, h, hin, (List.append_nil _).symm, rfl, rfl⟩
  | cons b bs ih =>
    obtain ⟨u, r, hu, hcu, hinu, hru, hmu⟩ := h.step_predict hin
    obtain ⟨v, hv, hcv, hinv, hrv, hmv⟩ := hcu.step_train hinu
    obtain ⟨t, rs, ht, hct, hint, hrt, hlen, hmt⟩ := ih hcv hinv
    refine ⟨t, r :: rs, ?_, hct, hint, ?_, congrArg (· + 1) hlen, hmt.trans (hmv.trans hmu)⟩
    · calc run (2 * bs.length + 2) s
        _ = run (2 * bs.length + 1) u := run_of_step hu _
        _ = run (2 * bs.length) v := run_of_step hv _
        _ = .next t := ht
    · rw [hrt, hrv, hru, List.append_assoc, List.singleton_append]

/-- Settles O57: every branch ends as it began, between two branches, and nothing is left to
present. -/
theorem alternationEndsWell : Obligations.AlternationEndsWell := by
  intro s bs hinv hi hp hf hin
  have h : InContract s false := ⟨hinv, hi, hp, hf⟩
  obtain ⟨t, rs, ht, hct, hint, hresp, hlen, hmode⟩ := h.run_branches hin
  exact ⟨t, ht, ⟨hint, hct.fault, hct.pending⟩, by rw [hresp, List.length_append, hlen],
    ⟨rs, hresp.symm⟩, hmode⟩

end Sys2Proof.Machine

namespace Sys2Proof.Machine

/-! ### The constants the spec takes from general knowledge (log entries 3 and 4) -/

/-- The default `THETA_FN` holds the formula's value at each width, 0 to 32 (R9). -/
theorem thetaFnDefault_getElem? {w : Nat} (hw : w ≤ 32) :
    thetaFnDefault[w]? = some (thetaDefault w) := by
  have hrange : (List.range 33)[w]? = some w := List.getElem?_range (by omega)
  rw [thetaFnDefault, Vector.getElem?_mk, List.getElem?_toArray, List.getElem?_map, hrange,
    Option.map_some]

/-- Settles O38: the reset state holds the default `THETA_FN`. -/
theorem defaultTheta : Obligations.DefaultTheta :=
  fun _ hw => thetaFnDefault_getElem? hw

/-- Settles O39: each number selects the mode of its name, and an unrecognized one is 4 or above. -/
theorem modeNumbers : Obligations.ModeNumbers :=
  ⟨modeOf_static.2 rfl, modeOf_gshare.2 rfl, modeOf_tournament.2 rfl, modeOf_custom.2 rfl,
    fun _ => modeOf_unrecognized.symm⟩

end Sys2Proof.Machine
